-- ==== Sys2Proof/Config.lean ====
section
/-!
DEFINITION. The instance parameters of the Hamming ECC core (spec/00_scope.md, rule R6).

The spec leaves `N_MAX` and `XW` open and says that a model takes them as arguments (decision D2, entry
U10).  They are plain data: a state carries the parameters of its own instance, so every claim about the
machine can speak of every instance at once.  No value of this hardware is left to chance
(spec/93_implementation_defined.md: no entry is treated as "any value"), so there is no free value here.
-/

namespace Sys2Proof

/-- The two parameters of an instance (R6). -/
structure Params where
  /-- `N_MAX`: the largest codeword length, in bits, that the vector ports carry. -/
  N_MAX : Nat
  /-- `XW`: the width in bits of the integer operand and result fields. -/
  XW : Nat
deriving DecidableEq, Repr

/-- The constraints R6 puts on an instance: `N_MAX >= 1`, `XW >= 2`, `2^XW > N_MAX`. -/
abbrev Params.Valid (p : Params) : Prop :=
  1 ≤ p.N_MAX ∧ 2 ≤ p.XW ∧ p.N_MAX < 2 ^ p.XW

/-- The reference configuration `REF31` of R6: `N_MAX = 31`, `XW = 8`. -/
def Params.ref31 : Params := { N_MAX := 31, XW := 8 }

/-- The width of the request word: `3 + 2*XW + N_MAX` bits (R30). -/
def Params.reqBits (p : Params) : Nat := 3 + 2 * p.XW + p.N_MAX

/-- The width of the response word: `2 + XW + N_MAX` bits (R31). -/
def Params.rspBits (p : Params) : Nat := 2 + p.XW + p.N_MAX

end Sys2Proof
end

