-- ==== Sys2Proof/Word.lean ====
section
/-!
DEFINITION. The values that travel on the ports of the core: bits, bit sequences, a request, a response.

The integer fields `a`, `b`, `y` and the vector fields `din`, `dout` are unsigned values (R23, R30, R31)
whose widths are parameters of the instance; they are natural numbers here, and `WellFormed` says when they
fit their fields.  The two fields of fixed width are exact: `op` is a `BitVec 3`, and the 2-bit status code
is one of its four names (R36 gives all four codes a meaning).
-/

namespace Sys2Proof

/-- A bit (R7): `false` is 0 and `true` is 1, so exclusive or of Booleans is `XOR` of bits. -/
abbrev Bit := Bool

/-- A bit sequence (spec/00_scope.md, section 5.2): position `p` (1-based) is element `p - 1` of the list. -/
abbrev BitSeq := List Bit

/-- The status codes of R36.  Code 0 is one code with two names, `OK` and `NOERR`. -/
inductive Status where
  /-- Code 0: `OK`, and for `DECODE` the outcome NoError (`NOERR`). -/
  | ok
  /-- Code 1: `CORRECTED`, by `DECODE` only. -/
  | corrected
  /-- Code 2: `UNCORRECTABLE`, by `DECODE` only. -/
  | uncorrectable
  /-- Code 3: `INVALID`, for a request the instance cannot serve (R64). -/
  | invalid
deriving DecidableEq, Repr

/-- A request: the four input fields of the core (R30). -/
structure Request where
  /-- `op`, 3 bits: the operation code. -/
  op : BitVec 3
  /-- `a`, XW bits, unsigned: the first integer operand, a length for the vector operations. -/
  a : Nat
  /-- `b`, XW bits, unsigned: the second integer operand, used by `COVER` only. -/
  b : Nat
  /-- `din`, N_MAX bits: the vector operand; position `p` is on bit `p - 1` (R23). -/
  din : Nat
deriving DecidableEq, Repr

/-- A response: the three output fields of the core, every one driven for every request (R31). -/
structure Response where
  /-- `status`, 2 bits. -/
  status : Status
  /-- `y`, XW bits, unsigned: the integer result. -/
  y : Nat
  /-- `dout`, N_MAX bits: the vector result; position `p` is on bit `p - 1` (R23). -/
  dout : Nat
deriving DecidableEq, Repr

end Sys2Proof
end

