-- ==== Sys2Proof/Syntax.lean ====
section
/-!
DEFINITION. The operations of the core as syntax: one constructor per row of spec/opcode_table.json, each with
the operands that R33 gives the operation.  A field an operation does not use (R35) is no operand of it.
-/

namespace Sys2Proof

/-- The five operations of R32 and the three reserved codes of R34. -/
inductive Instr where
  /-- `PCOUNT m` (R40). -/
  | pcount (m : Nat)
  /-- `ISPOW2 x` (R42). -/
  | ispow2 (x : Nat)
  /-- `ENCODE bits` (R48): `m` is the data length, `din` the whole vector field. -/
  | encode (m : Nat) (din : Nat)
  /-- `DECODE bits` (R56): `n` is the codeword length, `din` the whole vector field. -/
  | decode (n : Nat) (din : Nat)
  /-- `COVER i, n` (R61): `i` is the check index, `n` the codeword length. -/
  | cover (i : Nat) (n : Nat)
  /-- Reserved operation code 5 (R34). -/
  | reserved5
  /-- Reserved operation code 6 (R34). -/
  | reserved6
  /-- Reserved operation code 7 (R34). -/
  | reserved7
deriving DecidableEq, Repr

end Sys2Proof
end

