-- ==== Sys2Proof/WellFormed.lean ====
section
/-!
DEFINITION. When the values of a request, of a response and of an instruction fit the fields an instance has
for them (R6, R30, R31, R33).
-/

namespace Sys2Proof

/-- The integer fields of a request have XW bits and its vector field N_MAX bits (R30). -/
abbrev Request.Fits (p : Params) (q : Request) : Prop :=
  q.a < 2 ^ p.XW ∧ q.b < 2 ^ p.XW ∧ q.din < 2 ^ p.N_MAX

/-- The integer field of a response has XW bits and its vector field N_MAX bits (R31). -/
abbrev Response.Fits (p : Params) (r : Response) : Prop :=
  r.y < 2 ^ p.XW ∧ r.dout < 2 ^ p.N_MAX

/-- Every operand is a value its field can hold (R30, R33).  A length above the capacity of the instance is
well formed: it is served with the `INVALID` status (R64), not refused as syntax. -/
def Instr.wellFormed (p : Params) : Instr → Bool
  | .pcount m => decide (m < 2 ^ p.XW)
  | .ispow2 x => decide (x < 2 ^ p.XW)
  | .encode m din => decide (m < 2 ^ p.XW) && decide (din < 2 ^ p.N_MAX)
  | .decode n din => decide (n < 2 ^ p.XW) && decide (din < 2 ^ p.N_MAX)
  | .cover i n => decide (i < 2 ^ p.XW) && decide (n < 2 ^ p.XW)
  | .reserved5 => true
  | .reserved6 => true
  | .reserved7 => true

end Sys2Proof
end

