-- ==== Sys2Proof/Decode.lean ====
section
/-!
DEFINITION. The request word `REQ = {din, b, a, op}` (R30), the operation codes (R32), the decoder and the
encoder.

Only `op` selects the operation (R32).  The decoder is total: it refuses, by name, a number that is no request
word of the instance, and reads an instruction from every word that is one.
-/

namespace Sys2Proof

/-- The `width` bits of `w` from bit `lo` upwards, as an unsigned number: `w[lo + width - 1 : lo]`. -/
def slice (w lo width : Nat) : Nat := w / 2 ^ lo % 2 ^ width

/-- The request whose fields are the slices of R30's table of the word `w`.  Bits at and above the width of
the word belong to no field. -/
def Request.ofWord (p : Params) (w : Nat) : Request :=
  { op := BitVec.ofNat 3 (slice w 0 3)
    a := slice w 3 p.XW
    b := slice w (p.XW + 3) p.XW
    din := slice w (2 * p.XW + 3) p.N_MAX }

/-- The request word `{din, b, a, op}` of R30.  Each operand is cut to the width of its field, so one operand
never spills into the next field. -/
def Request.toWord (p : Params) (q : Request) : Nat :=
  q.op.toNat + 2 ^ 3 * (q.a % 2 ^ p.XW + 2 ^ p.XW * (q.b % 2 ^ p.XW + 2 ^ p.XW * (q.din % 2 ^ p.N_MAX)))

/-- The instruction a request asks for: the operation code of R32 with the operands of R33.  A 3-bit code that
is none of 0 to 6 is 7. -/
def decodeRequest (q : Request) : Instr :=
  match q.op.toNat with
  | 0 => .pcount q.a
  | 1 => .ispow2 q.a
  | 2 => .encode q.a q.din
  | 3 => .decode q.a q.din
  | 4 => .cover q.b q.a
  | 5 => .reserved5
  | 6 => .reserved6
  | _ => .reserved7

/-- Why a number is not decoded. -/
inductive DecodeError where
  /-- The number has a bit at or above the width of the request word (R30), where the core has no input.
  Raised by `decode`; safe, since no request of the instance is refused by it. -/
  | widerThanRequest
deriving DecidableEq, Repr

/-- The instruction that the request word `w` holds (R30, R32). -/
def decode (p : Params) (w : Nat) : Except DecodeError Instr :=
  if w < 2 ^ p.reqBits then .ok (decodeRequest (Request.ofWord p w)) else .error .widerThanRequest

/-- The operation code of an instruction (R32, R34). -/
def Instr.opcode : Instr → BitVec 3
  | .pcount _ => 0#3
  | .ispow2 _ => 1#3
  | .encode _ _ => 2#3
  | .decode _ _ => 3#3
  | .cover _ _ => 4#3
  | .reserved5 => 5#3
  | .reserved6 => 6#3
  | .reserved7 => 7#3

/-- The request of an instruction: its operands in their fields (R33); "Ignored fields are encoded as 0"
(R37). -/
def encodeRequest : Instr → Request
  | .pcount m => { op := 0#3, a := m, b := 0, din := 0 }
  | .ispow2 x => { op := 1#3, a := x, b := 0, din := 0 }
  | .encode m din => { op := 2#3, a := m, b := 0, din := din }
  | .decode n din => { op := 3#3, a := n, b := 0, din := din }
  | .cover i n => { op := 4#3, a := n, b := i, din := 0 }
  | .reserved5 => { op := 5#3, a := 0, b := 0, din := 0 }
  | .reserved6 => { op := 6#3, a := 0, b := 0, din := 0 }
  | .reserved7 => { op := 7#3, a := 0, b := 0, din := 0 }

/-- The request word of a well-formed instruction. -/
def encode (p : Params) (i : Instr) : Nat := (encodeRequest i).toWord p

/-- The decoder's reading of the opcode table's word `w` of `nbits` bits, in the reference configuration whose
bit places the table gives.  A request is one word with bit 0 its least significant bit (R30), as the table
numbers it, so there are no bytes to order. -/
def decodeTableWord (nbits w : Nat) : Option Instr :=
  (decode Params.ref31 (w % 2 ^ nbits)).toOption

end Sys2Proof
end

