-- ==== Sys2Proof/Machine/Operands.lean ====
section
/-!
DEFINITION. The operands of the operations: positions of a bit sequence and the packing of sequences and sets of
positions in vector fields (spec/00_scope.md section 5, spec/20_memory.md R20 to R24).
-/

namespace Sys2Proof.Hamming

/-- The positions `1..n` of a sequence of length `n`, in increasing order (R20). -/
def positions (n : Nat) : List Nat := List.range' 1 n

/-- The position read `c[j]`, for `1 <= j <= len c`.  No operation reads elsewhere (U1); there the value is 0
(log entry 9). -/
def bitAt (c : BitSeq) : Nat → Bit
  | 0 => false
  | k + 1 => c.getD k false

/-- The position write `c[j] <- v` on a working copy, for `1 <= j <= len c`.  No operation writes elsewhere;
there nothing is written (log entry 9). -/
def setAt (c : BitSeq) (j : Nat) (v : Bit) : BitSeq :=
  match j with
  | 0 => c
  | k + 1 => c.set k v

/-- `flip(s, p)` (spec/00_scope.md section 5.2): position `p` holds `s[p] XOR 1`, every other position is
unchanged. -/
def flip (c : BitSeq) (p : Nat) : BitSeq := setAt c p (!bitAt c p)

/-- The parity of a set of positions of a codeword: the XOR of the bits at those positions (R7). -/
def parity (c : BitSeq) (set : List Nat) : Bit :=
  set.foldl (fun acc j => acc ^^ bitAt c j) false

/-- `seq(f, L)`: the sequence of length `L` whose position `p` is bit `p - 1` of the field `f`; bits at and
above `L` are not looked at (R24). -/
def seq (f L : Nat) : BitSeq := (List.range L).map (fun k => f.testBit k)

/-- `vec(s)`: bit `p - 1` of the field is `s[p]`, and every higher bit is 0 (R23). -/
def vec : BitSeq → Nat
  | [] => 0
  | b :: s => b.toNat + 2 * vec s

/-- A set of positions as a mask: bit `p - 1` is 1 exactly when `p` is in the set (R61). -/
def maskOf (set : List Nat) : Nat := set.foldl (fun acc j => acc ||| 2 ^ (j - 1)) 0

end Sys2Proof.Hamming
end

