-- ==== Sys2Proof/Machine/State.lean ====
section
/-!
DEFINITION. The state of the modelled machine, its faults and refusals, and the state after reset.

The core itself "holds no state between operations" (R10): no register, program counter, flag or memory
(R11 to R13).  What a state holds is therefore the two ports of the core, the request presented on its inputs
and the response on its outputs, and the parameters of the instance (R6): log entries 1 and 2.
-/

namespace Sys2Proof.Machine

/-- Reasons for the machine to stop.  There are none: the core "never traps, throws, panics, hangs or
escalates", and "In a model there is no fault outcome" (R62). -/
inductive Fault where
deriving DecidableEq, Repr

/-- Reasons for an instruction to have no meaning. -/
inductive Refusal where
  /-- Raised by an arm of `exec` whose instruction has no meaning yet; safe, since nothing follows from it.  No
  arm raises it: every instruction has its meaning. -/
  | notModelled (mnemonic : String)
deriving DecidableEq, Repr

/-- One core with what stands on its ports. -/
structure State where
  /-- The parameters of the instance (R6), which no step changes. -/
  inst : Params
  /-- The input port: the request the host presents (R30); never driven by the core (R15). -/
  req : Request
  /-- The output port: the response of the request on the input port (R31, R70). -/
  rsp : Response
deriving DecidableEq, Repr

/-- The state when power comes up.  "The core has no reset" (R70) and the list of reset values is empty (R16):
the parameters are those of the reference configuration REF31 (log entry 2); the inputs the host has not driven
yet are zero (DESIGN CHOICE, log entry 3); the outputs are the response of that request, `PCOUNT 0`, since
"whatever request is present when power comes up gets the response the operation rules give it" (R70; DEDUCED,
log entry 4). -/
def State.reset : State :=
  { inst := Params.ref31
    req := { op := 0#3, a := 0, b := 0, din := 0 }
    rsp := { status := .ok, y := 1, dout := 0 } }

end Sys2Proof.Machine
end

