-- ==== Sys2Proof/Machine/Ops.lean ====
section
/-!
DEFINITION. The named operations on the output port: driving a response, and the one `INVALID` response.

The core takes no exceptions (R62, R67); its only outcome beside a value is the returned status `INVALID`
(R64).  `State.invalid` is that one shared operation, and as there is no trap entry there is no return.
-/

namespace Sys2Proof.Machine

/-- `v` as a field of `width` bits, the `zext` of spec/00_scope.md section 5.3; used where `v` fits
(log entry 8). -/
def zext (width v : Nat) : Nat := v % 2 ^ width

/-- The outcome of an operation that answers: all three response fields are driven (R31), and nothing else
changes (R10, R15). -/
def State.respond (s : State) (status : Status) (y dout : Nat) :
    Host.Outcome State Fault Refusal :=
  .next { s with rsp := { status := status, y := zext s.inst.XW y, dout := zext s.inst.N_MAX dout } }

/-- The response to a request the instance cannot serve: `status = 3, y = 0, dout = 0` (R64). -/
def State.invalid (s : State) : Host.Outcome State Fault Refusal :=
  s.respond .invalid 0 0

end Sys2Proof.Machine
end

