-- ==== Sys2Proof/Machine/Diagnostic.lean ====
section
/-!
DEFINITION. The covering sets of the parity checks (spec/43_diagnostic.md) and the operation `COVER`.
-/

namespace Sys2Proof.Hamming

/-- The parity position of check `i` (R59). -/
def parityPos (i : Nat) : Nat := 2 ^ i

/-- `coveredPositions(i, n)`: the positions `j` in `1..n` with `(j AND 2^i) != 0`, in increasing order (R60). -/
def coveredPositions (i n : Nat) : List Nat :=
  (positions n).filter (fun j => j &&& parityPos i != 0)

end Sys2Proof.Hamming

namespace Sys2Proof.Machine

/-- `COVER i, n` (R61).  The capacity check comes first (R66). -/
def execCover (i n : Nat) (s : State) : Host.Outcome State Fault Refusal :=
  if s.inst.N_MAX < n then s.invalid
  else s.respond .ok 0 (Hamming.maskOf (Hamming.coveredPositions i n))

end Sys2Proof.Machine
end

