-- ==== Sys2Proof/Machine/ParityPlanner.lean ====
section
/-!
DEFINITION. The ParityPlanner (spec/40_parity_planner.md): parity counts, the power-of-two test, codeword
lengths and data positions, and the operations `PCOUNT` and `ISPOW2`.
-/

namespace Sys2Proof.Hamming

/-- `while 2^r < budget r: r = r + 1`, the one loop that R46 lets the two counts share.  The first argument
bounds the number of rounds; each caller gives a bound its rule guarantees (log entry 10). -/
def minimalCheckCount (budget : Nat → Nat) : Nat → Nat → Nat
  | 0, r => r
  | rounds + 1, r => if 2 ^ r < budget r then minimalCheckCount budget rounds (r + 1) else r

/-- `rEnc(m)`, doc00's `computeParityCount(m)` (R39): the search starts at 1 and its budget is `m + r + 1`;
`r <= m + 1` always, so `m` rounds suffice. -/
def rEnc (m : Nat) : Nat := minimalCheckCount (fun r => m + r + 1) m 1

/-- `isPowerOfTwo(x)` for any integer (R41): false for `x <= 0`, else `(x AND (x - 1)) = 0`. -/
def isPowerOfTwo (x : Int) : Bool :=
  if x ≤ 0 then false else x.toNat &&& (x.toNat - 1) == 0

/-- `rDec(n)` (R43): the search starts at 0 and its budget is `n + 1`; `rDec(n) <= n`, so `n` rounds suffice. -/
def rDec (n : Nat) : Nat := minimalCheckCount (fun _ => n + 1) n 0

/-- `nOf(m)`: the length of the codeword the Encoder makes from `m` data bits (R45). -/
def nOf (m : Nat) : Nat := m + rEnc m

/-- The largest `m <= bound` with `nOf(m) <= limit`, or 0. -/
def largestWithin (limit : Nat) : Nat → Nat
  | 0 => 0
  | m + 1 => if nOf (m + 1) ≤ limit then m + 1 else largestWithin limit m

/-- `M_MAX` of an instance (R6): the largest `m` with `nOf(m) <= N_MAX`; such an `m` is below `N_MAX`. -/
def mMax (p : Params) : Nat := largestWithin p.N_MAX p.N_MAX

/-- The parity positions of a codeword of length `n`, in increasing order (R20). -/
def parityPositions (n : Nat) : List Nat := (positions n).filter (fun j => isPowerOfTwo j)

/-- The data positions of a codeword of length `n`, in increasing order (R20). -/
def dataPositions (n : Nat) : List Nat := (positions n).filter (fun j => !isPowerOfTwo j)

/-- `dataPos(k)` for `k >= 1`: the k-th positive integer that is not a power of two (R22).  There are at
least `k` of them up to `2k + 1`. -/
def dataPos (k : Nat) : Nat := (dataPositions (2 * k + 1)).getD (k - 1) 0

end Sys2Proof.Hamming

namespace Sys2Proof.Machine

/-- `PCOUNT m` (R40).  There is no capacity check. -/
def execPcount (m : Nat) (s : State) : Host.Outcome State Fault Refusal :=
  s.respond .ok (Hamming.rEnc m) 0

/-- `ISPOW2 x` (R42). -/
def execIspow2 (x : Nat) (s : State) : Host.Outcome State Fault Refusal :=
  s.respond .ok (if Hamming.isPowerOfTwo x then 1 else 0) 0

end Sys2Proof.Machine
end

