-- ==== Sys2Proof/Machine/Decoder.lean ====
section
/-!
DEFINITION. The Decoder/Corrector (spec/42_decoder_corrector.md): the syndrome generator, the classifier, the
single-bit corrector, and the operation `DECODE`.
-/

namespace Sys2Proof.Hamming

/-- The parity of check `i` over its whole covering set (R52); the check fails when it is 1. -/
def decoderParity (code : BitSeq) (i : Nat) : Bit :=
  parity code (coveredPositions i code.length)

/-- The syndrome built from the given checks, in their order: each check that fails sets its bit (R52). -/
def syndromeOver (code : BitSeq) (checks : List Nat) : Nat :=
  checks.foldl (fun s i => if decoderParity code i then s + parityPos i else s) 0

/-- `syndrome(code)` (R52): the checks are `0 .. rDec(n) - 1`. -/
def syndrome (code : BitSeq) : Nat := syndromeOver code (List.range (rDec code.length))

/-- The three classes of a syndrome (R53). -/
inductive SyndromeClass where
  /-- `s = 0`. -/
  | noError
  /-- `0 < s <= n`. -/
  | correctable
  /-- `s > n`. -/
  | uncorrectable
deriving DecidableEq, Repr

/-- `classify(s, n)` (R53). -/
def classify (s n : Nat) : SyndromeClass :=
  if s = 0 then .noError else if s ≤ n then .correctable else .uncorrectable

/-- The tagged result of `decodeAndCorrect` (R55, 90_conflicts.md C3). -/
inductive DecodeResult where
  /-- NoError: no corrected codeword. -/
  | noError
  /-- Corrected: the position that was flipped and the corrected codeword. -/
  | corrected (position : Nat) (codeword : BitSeq)
  /-- Uncorrectable: no corrected codeword; the syndrome is kept. -/
  | uncorrectable (syndrome : Nat)
deriving DecidableEq, Repr

/-- `decodeAndCorrect(code)` (R55), for a bit sequence of any length; the corrector works on a copy (R54). -/
def decodeAndCorrect (code : BitSeq) : DecodeResult :=
  let s := syndrome code
  match classify s code.length with
  | .noError => .noError
  | .correctable => .corrected s (flip code s)
  | .uncorrectable => .uncorrectable s

end Sys2Proof.Hamming

namespace Sys2Proof.Machine

/-- `DECODE bits` (R56).  The capacity check comes first (R66). -/
def execDecode (n din : Nat) (s : State) : Host.Outcome State Fault Refusal :=
  if s.inst.N_MAX < n then s.invalid
  else
    match Hamming.decodeAndCorrect (Hamming.seq din n) with
    | .noError => s.respond .ok 0 0
    | .corrected position codeword => s.respond .corrected position (Hamming.vec codeword)
    | .uncorrectable syndrome => s.respond .uncorrectable syndrome 0

end Sys2Proof.Machine
end

