-- ==== Sys2Proof/Machine/Encoder.lean ====
section
/-!
DEFINITION. The Encoder (spec/41_encoder.md): `encode`, `extractData` and the operation `ENCODE`.
-/

namespace Sys2Proof.Hamming

/-- Step 3 of `encode` (R47) over the given positions: each position that is not a power of two takes the next
unused data bit, and each that is holds the placeholder 0.  The walk never runs out of data (R50; log
entry 9). -/
def placeData : List Nat → BitSeq → BitSeq
  | [], _ => []
  | j :: js, data =>
    if isPowerOfTwo j then false :: placeData js data
    else data.headD false :: placeData js data.tail

/-- The parity step 4 computes for check `i` (R47): over the covering set without the parity position itself
(90_conflicts.md C6). -/
def encoderParity (c : BitSeq) (i : Nat) : Bit :=
  parity c ((coveredPositions i c.length).filter (fun j => j != parityPos i))

/-- Step 4 of `encode` (R47) for the given check indices, in their order. -/
def storeParities (c : BitSeq) (checks : List Nat) : BitSeq :=
  checks.foldl (fun c i => setAt c (parityPos i) (encoderParity c i)) c

/-- `encode(data)` (R47), for a DataVector of any length. -/
def encode (data : BitSeq) : BitSeq :=
  let r := rEnc data.length
  let n := data.length + r
  storeParities (placeData (positions n) data) (List.range r)

/-- `extractData(c)` (R51): the bits at the data positions, in increasing order.  The host performs it; it is no
operation of the core (R38). -/
def extractData (c : BitSeq) : BitSeq :=
  (dataPositions c.length).map (bitAt c)

end Sys2Proof.Hamming

namespace Sys2Proof.Machine

/-- `ENCODE bits` (R48).  The capacity check comes first (R66). -/
def execEncode (m din : Nat) (s : State) : Host.Outcome State Fault Refusal :=
  if s.inst.N_MAX < m + Hamming.rEnc m then s.invalid
  else
    let c := Hamming.encode (Hamming.seq din m)
    s.respond .ok c.length (Hamming.vec c)

end Sys2Proof.Machine
end

