-- ==== Sys2Proof/Machine/Reserved.lean ====
section
/-!
DEFINITION. The reserved operation codes 5, 6 and 7 (R34): not hints, not no-ops; each answers `INVALID`.
-/

namespace Sys2Proof.Machine

/-- Reserved operation code 5 (R34). -/
def execReserved5 (s : State) : Host.Outcome State Fault Refusal := s.invalid

/-- Reserved operation code 6 (R34). -/
def execReserved6 (s : State) : Host.Outcome State Fault Refusal := s.invalid

/-- Reserved operation code 7 (R34). -/
def execReserved7 (s : State) : Host.Outcome State Fault Refusal := s.invalid

end Sys2Proof.Machine
end

