-- ==== Sys2Proof/Machine/Dispatch.lean ====
section
/-!
DEFINITION. The meaning of each operation, one arm per constructor of `Instr`.
-/

namespace Sys2Proof.Machine

def exec (i : Instr) (s : State) : Host.Outcome State Fault Refusal :=
  match i with
  | .pcount m => Sys2Proof.Machine.execPcount m s
  | .ispow2 x => Sys2Proof.Machine.execIspow2 x s
  | .encode m din => Sys2Proof.Machine.execEncode m din s
  | .decode n din => Sys2Proof.Machine.execDecode n din s
  | .cover k n => Sys2Proof.Machine.execCover k n s
  | .reserved5 => Sys2Proof.Machine.execReserved5 s
  | .reserved6 => Sys2Proof.Machine.execReserved6 s
  | .reserved7 => Sys2Proof.Machine.execReserved7 s

end Sys2Proof.Machine
end

