-- ==== Sys2Proof/Machine/Ports.lean ====
section
/-!
DEFINITION. The ports: the output follows the input, "The response fields are a function of the request fields
at all times" (R70).

The core keeps nothing between its input and its output (R10), so a change of the input is a change of the output
in the same moment: the response of the old request is gone (R72), and no step has to come first (log entry 5).
-/

namespace Sys2Proof.Machine

/-- The response read off an outcome.  Only a next state has one. -/
def responseOf : Host.Outcome State Fault Refusal → Option Response
  | .next t => some t.rsp
  | .fault _ => none
  | .refused _ => none

/-- The function the core is (decision D1): the response that the operation rules give the request on the input
port.  The response the state holds is never taken: every request is answered (R62). -/
def State.output (s : State) : Response :=
  (responseOf (exec (decodeRequest s.req) s)).getD s.rsp

/-- The host presents the request `q` on the input port (R12); with it the output port shows the response of
`q`, and that of the request before is gone (R70, R72). -/
def State.present (s : State) (q : Request) : State :=
  { s with req := q, rsp := { s with req := q }.output }

/-- Power comes up at an instance with the parameters `p` while the host drives the request `q`: "whatever request
is present when power comes up gets the response the operation rules give it" (R70).  The response written before
`present` is overwritten by it. -/
def State.powerUp (p : Params) (q : Request) : State :=
  State.present { inst := p, req := q, rsp := { status := .ok, y := 0, dout := 0 } } q

end Sys2Proof.Machine
end

