-- ==== Sys2Proof/Machine/Step.lean ====
section
/-!
DEFINITION. One step: the core answers the request that stands on its input port.

The core fetches nothing (R12); the host presents each request (R37).  A step is one transaction, a request
and the response that belongs to it (decision D1).  Where the output port shows that response already, as it does
after every presenting of a request, a step changes nothing (R26, log entry 5).
-/

namespace Sys2Proof.Machine

/-- The core reads its request, selects the operation by `op` (R32) and drives the response. -/
def step (s : State) : Host.Outcome State Fault Refusal :=
  exec (decodeRequest s.req) s

/-- The state with the request word `w` of `nbits` bits on the input port, where the next step finds its
request; the output port follows (R70).  The port has no input for a bit at or above the width of the request word (log entry 6). -/
def State.withFetchWord (s : State) (nbits w : Nat) : State :=
  s.present (Request.ofWord s.inst (w % 2 ^ nbits))

end Sys2Proof.Machine
end

