-- ==== Sys2Proof/Machine/Flags.lean ====
section
/-!
DEFINITION. The condition information of the core, which is the status of a response and nothing else (R13):
the status codes (R36) and the response word `RSP = {dout, y, status}` (R31).
-/

namespace Sys2Proof

/-- The 2-bit code of a status (R36). -/
def Status.code : Status → BitVec 2
  | .ok => 0#2
  | .corrected => 1#2
  | .uncorrectable => 2#2
  | .invalid => 3#2

/-- The status of a 2-bit code (R36): every code has one. -/
def Status.ofCode (c : BitVec 2) : Status :=
  match c.toNat with
  | 0 => .ok
  | 1 => .corrected
  | 2 => .uncorrectable
  | _ => .invalid

/-- The response word `{dout, y, status}` (R31). -/
def Response.toWord (p : Params) (r : Response) : Nat :=
  r.status.code.toNat + 2 ^ 2 * (r.y % 2 ^ p.XW + 2 ^ p.XW * (r.dout % 2 ^ p.N_MAX))

/-- The response whose fields are the slices of R31's table of the word `w`. -/
def Response.ofWord (p : Params) (w : Nat) : Response :=
  { status := Status.ofCode (BitVec.ofNat 2 (slice w 0 2))
    y := slice w 2 p.XW
    dout := slice w (p.XW + 2) p.N_MAX }

end Sys2Proof
end

