-- ==== Sys2Proof/Machine/HostSide.lean ====
section
/-!
DEFINITION. The host's side of the interface, as far as the spec gives it: a list of requests performed in order
(R37), the written form of `ENCODE` and `DECODE` lines (R37), and the two host-side steps `EXTRACT` and `FLIP`
(R38).  None of this is an operation of the core.
-/

namespace Sys2Proof.Machine

/-- `ENCODE bits` as it is written (R37): the length of `bits` is the value of field `a`. -/
def encodeLine (bits : BitSeq) : Instr := .encode bits.length (Hamming.vec bits)

/-- `DECODE bits` as it is written (R37): the length of `bits` is the value of field `a`. -/
def decodeLine (bits : BitSeq) : Instr := .decode bits.length (Hamming.vec bits)

/-- The responses to a list of requests that the host presents one after the other (R37), each to the state
the last one left. -/
def serve : State → List Request → List (Option Response)
  | _, [] => []
  | s, q :: qs =>
    match step (s.present q) with
    | .next t => some t.rsp :: serve t qs
    | .fault _ => none :: serve s qs
    | .refused _ => none :: serve s qs

/-- A line of a program (R37, R38). -/
inductive HostLine where
  /-- A request to the core. -/
  | request (i : Instr)
  /-- `EXTRACT bits`, in the host. -/
  | extract (bits : BitSeq)
  /-- `FLIP bits, p`, in the host. -/
  | flip (bits : BitSeq) (p : Nat)
deriving DecidableEq, Repr

/-- What a line of a program gives the host. -/
inductive LineResult where
  /-- The response of the core. -/
  | response (r : Response)
  /-- A bit sequence the host computed. -/
  | bits (c : BitSeq)
deriving DecidableEq, Repr

/-- The request the host builds from a written operation (R37), where the integer fields of the instance can
hold its operands and its length.  R37 does not say what a line means whose operand no field can hold, such as
`PCOUNT 300` on REF31: no request can be built from it (DESIGN CHOICE, log entry 18).  A word longer than `N_MAX`
whose length field `a` holds is still a request, with the bits cut for which `din` has no place (DESIGN CHOICE, log
entry 18); the length alone then settles its response (R64). -/
def requestOfLine (p : Params) (i : Instr) : Option Request :=
  if (encodeRequest i).a < 2 ^ p.XW ∧ (encodeRequest i).b < 2 ^ p.XW then
    some { encodeRequest i with din := (encodeRequest i).din % 2 ^ p.N_MAX }
  else none

/-- What a line gives in the state `s`; a line from which no request can be built gives nothing (DESIGN CHOICE,
log entry 18).  `flip(s, p)` is defined for `1 <= p <= len(s)` only (spec/00_scope.md section 5.2), and gives
nothing elsewhere (log entry 14). -/
def lineResult (s : State) : HostLine → Option LineResult
  | .request i =>
    (requestOfLine s.inst i).bind (fun q => (responseOf (step (s.present q))).map .response)
  | .extract c => some (.bits (Hamming.extractData c))
  | .flip c p => if 1 ≤ p ∧ p ≤ c.length then some (.bits (Hamming.flip c p)) else none

/-- The codeword the host goes on with after it had the core decode `code` (R56): with `NOERR` its own unchanged
copy, with `CORRECTED` the one in `dout`, and none otherwise, where a zero `dout` means "absent" (U8). -/
def receive (code : BitSeq) (r : Response) : Option BitSeq :=
  match r.status with
  | .ok => some code
  | .corrected => some (Hamming.seq r.dout code.length)
  | .uncorrectable => none
  | .invalid => none

end Sys2Proof.Machine
end

