-- ==== Sys2Proof/Safety.lean ====
section
/-!
DEFINITION. What a safe state of the machine is: the instance meets R6, both ports hold values their fields can
hold, and the response is one of the forms R63 and R64 allow.
-/

namespace Sys2Proof.Machine

/-- The forms of a response (R63, R64).  `CORRECTED` carries a position of a codeword the ports can carry;
`UNCORRECTABLE` carries a syndrome above some length `n >= 2`, and no codeword; `INVALID` records nothing. -/
def legalResponse (p : Params) (r : Response) : Prop :=
  match r.status with
  | .ok => True
  | .corrected => 1 ≤ r.y ∧ r.y ≤ p.N_MAX
  | .uncorrectable => 3 ≤ r.y ∧ r.dout = 0
  | .invalid => r.y = 0 ∧ r.dout = 0

/-- The invariant of the machine. -/
structure State.Safe (s : State) : Prop where
  /-- The parameters meet R6. -/
  valid : s.inst.Valid
  /-- The request fits the input port (R30). -/
  request : s.req.Fits s.inst
  /-- The response fits the output port (R31). -/
  response : s.rsp.Fits s.inst
  /-- The response has a form the rules allow (R63, R64). -/
  legal : legalResponse s.inst s.rsp

/-- The response on the output port is the response of the request on the input port, as it is "at all times"
in the hardware (R70).  It is so when power comes up, after every presenting of a request and after every step
(statement ResponseFollowsTheRequestAtAllTimes). -/
def State.settled (s : State) : Prop := step s = .next s

end Sys2Proof.Machine
end

