-- ==== Sys2Proof/Certificates/Slice0/Obligations.lean ====
section
/-!
DEFINITION. The statements about the model, for the provers.  Each names the rule of spec/ it formalises.

A result statement gives the whole next state, `{ s with rsp := … }`, so it is the frame of the operation too:
the request and the instance parameters, which are all the rest of the state, are unchanged.
-/

section
open Sys2Proof Sys2Proof.Machine Sys2Proof.Hamming

/-! ### ParityPlanner -/

/-- R39: `rEnc(m)` is the least `r >= 1` with `2^r >= m + r + 1`; its bound, its value at 0, its ranges and its
table. -/
def Obligations.ParityCountIsLeastPositive : Prop :=
  ∀ m : Nat,
    1 ≤ rEnc m ∧ m + rEnc m + 1 ≤ 2 ^ rEnc m ∧
    (∀ r, 1 ≤ r → m + r + 1 ≤ 2 ^ r → rEnc m ≤ r) ∧
    rEnc m ≤ m + 1 ∧ rEnc 0 = 1 ∧
    (∀ r, 2 ≤ r → (rEnc m = r ↔ 2 ^ (r - 1) - (r - 1) ≤ m ∧ m ≤ 2 ^ r - r - 1))

/-- R40: `PCOUNT m` answers `OK`, `rEnc(m)`, 0 for every `m` the field holds, whatever `b` and `din` hold; the
largest operand gives `XW + 1`, which fits; the worked example. -/
def Obligations.PcountAnswersTheParityCount : Prop :=
  ∀ (s : State) (m : Nat), s.inst.Valid → m < 2 ^ s.inst.XW →
    exec (.pcount m) s = .next { s with rsp := ⟨.ok, rEnc m, 0⟩ } ∧
    (∀ b din, step (s.present ⟨0#3, m, b, din⟩) =
      .next { s.present ⟨0#3, m, b, din⟩ with rsp := ⟨.ok, rEnc m, 0⟩ }) ∧
    rEnc 0 = 1 ∧ rEnc (2 ^ s.inst.XW - 1) = s.inst.XW + 1 ∧ s.inst.XW + 1 < 2 ^ s.inst.XW ∧ rEnc 4 = 3

/-- R41: `isPowerOfTwo(x)` is true exactly for the integers `2^k`, and exactly when `x > 0` and
`x AND (x - 1) = 0`; doc00's boundary cases. -/
def Obligations.PowerOfTwoTestIsExact : Prop :=
  (∀ x : Int, isPowerOfTwo x = true ↔ ∃ k : Nat, x = 2 ^ k) ∧
  (∀ x : Int, isPowerOfTwo x = true ↔ 0 < x ∧ x.toNat &&& (x.toNat - 1) = 0) ∧
  (∀ x : Int, x < 0 → isPowerOfTwo x = false) ∧
  isPowerOfTwo 0 = false ∧ isPowerOfTwo 1 = true ∧ isPowerOfTwo 2 = true ∧ isPowerOfTwo 3 = false ∧
  isPowerOfTwo 4 = true

/-- R42: `ISPOW2 x` answers `OK`, 1 for a power of two and 0 otherwise, 0, whatever `b` and `din` hold; its corner
cases. -/
def Obligations.Ispow2AnswersTheTest : Prop :=
  ∀ (s : State) (x : Nat), s.inst.Valid → x < 2 ^ s.inst.XW →
    exec (.ispow2 x) s = .next { s with rsp := ⟨.ok, if isPowerOfTwo x then 1 else 0, 0⟩ } ∧
    (∀ b din, step (s.present ⟨1#3, x, b, din⟩) =
      .next { s.present ⟨1#3, x, b, din⟩ with rsp := ⟨.ok, if isPowerOfTwo x then 1 else 0, 0⟩ }) ∧
    isPowerOfTwo 0 = false ∧ isPowerOfTwo 1 = true ∧
    isPowerOfTwo ((2 ^ (s.inst.XW - 1) : Nat) : Int) = true ∧
    isPowerOfTwo ((2 ^ s.inst.XW - 1 : Nat) : Int) = false ∧
    (∀ z : Int, z < 0 → isPowerOfTwo z = false) ∧ isPowerOfTwo 4 = true ∧ isPowerOfTwo 3 = false

/-- R43: `rDec(n)` is the least `r >= 0` with `2^r >= n + 1`, the number of bits of `n`; its checks are those of
the powers of two in `1..n`; a search from 1 differs at 0 only, where the extra check covers nothing. -/
def Obligations.CheckCountIsBitLength : Prop :=
  ∀ n : Nat,
    n + 1 ≤ 2 ^ rDec n ∧ (∀ r, n + 1 ≤ 2 ^ r → rDec n ≤ r) ∧
    rDec 0 = 0 ∧ (1 ≤ n → rDec n = Nat.log2 n + 1) ∧
    (∀ i, i < rDec n ↔ 2 ^ i ≤ n) ∧
    (1 ≤ n → minimalCheckCount (fun _ => n + 1) n 1 = rDec n) ∧
    minimalCheckCount (fun _ => 0 + 1) 0 1 = 1 ∧ decoderParity [] 0 = false

/-- R44: the Decoder runs as many checks on an encoded length as the Encoder made parity bits. -/
def Obligations.DecoderCountMatchesEncoder : Prop :=
  ∀ m : Nat, rDec (m + rEnc m) = rEnc m

/-- R45: codeword lengths: `nOf` is strictly increasing, its values, the reachable lengths, the data length of a
reachable length, and `M_MAX`. -/
def Obligations.CodewordLengthsAndCapacity : Prop :=
  (∀ m m', m < m' → nOf m < nOf m') ∧
  (List.range 27).map nOf =
    [1, 3, 5, 6, 7, 9, 10, 11, 12, 13, 14, 15, 17, 18, 19, 20, 21, 22, 23, 24, 25, 26, 27, 28, 29, 30, 31] ∧
  (∀ n : Nat, (∃ m, n = nOf m) ↔ n = 1 ∨ (3 ≤ n ∧ isPowerOfTwo n = false)) ∧
  (∀ n m, n = nOf m → m = n - rDec n) ∧
  (∀ p : Params, p.Valid → ∀ m, m ≤ mMax p ↔ nOf m ≤ p.N_MAX) ∧
  [7, 15, 31, 63, 127, 255].map (fun limit => mMax ⟨limit, 9⟩) = [4, 11, 26, 57, 120, 247]

/-! ### Positions and fields -/

/-- R20: every position `1..n` is a parity position or a data position and none is both; the parity positions are
the `2^i` up to `n`; the data positions hold the data bits in their order. -/
def Obligations.PositionsAreParityOrData : Prop :=
  (∀ n j : Nat, (j ∈ parityPositions n ∨ j ∈ dataPositions n) ↔ 1 ≤ j ∧ j ≤ n) ∧
  (∀ n j : Nat, ¬ (j ∈ parityPositions n ∧ j ∈ dataPositions n)) ∧
  (∀ n j : Nat, j ∈ parityPositions n ↔ ∃ i, j = 2 ^ i ∧ 2 ^ i ≤ n) ∧
  (∀ n j : Nat, 1 ≤ j → j ≤ n → (j ∈ parityPositions n ↔ isPowerOfTwo j = true)) ∧
  (∀ data : BitSeq, (dataPositions (nOf data.length)).map (bitAt (Hamming.encode data)) = data)

/-- R21: the data positions and the parity positions make up `1..n`; how many there are of each, for every length
and for the lengths the Encoder makes. -/
def Obligations.DataPositionCount : Prop :=
  (∀ n, (dataPositions n).length = n - (parityPositions n).length) ∧
  (∀ n, (parityPositions n).length = if n = 0 then 0 else Nat.log2 n + 1) ∧
  (∀ m, (parityPositions (nOf m)).length = rEnc m ∧ (dataPositions (nOf m)).length = m)

/-- R22: `dataPos` runs through the positions that are no power of two in increasing order; its first values, its
closed form; data bits are stored there and read back from there. -/
def Obligations.DataBitsLieAtDataPositions : Prop :=
  (∀ k, 1 ≤ k → dataPos k < dataPos (k + 1)) ∧
  (∀ j : Nat, (∃ k, 1 ≤ k ∧ dataPos k = j) ↔ 1 ≤ j ∧ isPowerOfTwo j = false) ∧
  (List.range 26).map (fun k => dataPos (k + 1)) =
    [3, 5, 6, 7, 9, 10, 11, 12, 13, 14, 15, 17, 18, 19, 20, 21, 22, 23, 24, 25, 26, 27, 28, 29, 30, 31] ∧
  (∀ k, 1 ≤ k → dataPos k = k + rEnc k ∧ dataPos k = nOf k) ∧
  (∀ data k, 1 ≤ k → k ≤ data.length → bitAt (Hamming.encode data) (dataPos k) = bitAt data k) ∧
  (∀ c k, 1 ≤ k → k ≤ (extractData c).length → bitAt (extractData c) k = bitAt c (dataPos k))

/-- R23: packing puts position `p` on bit `p - 1`; read as a number the field is the sum of `s[p] * 2^(p-1)`;
unpacking gives the sequence back; the string `0110011` is `0x66`. -/
def Obligations.VectorFieldBitOrder : Prop :=
  (∀ s k, (vec s).testBit k = bitAt s (k + 1)) ∧
  (∀ s, vec s = ((positions s.length).map (fun p => (bitAt s p).toNat * 2 ^ (p - 1))).sum) ∧
  (∀ s, seq (vec s) s.length = s) ∧
  (∀ f L, vec (seq f L) = f % 2 ^ L) ∧
  vec [false, true, true, false, false, true, true] = 0x66

/-- R24: input bits at and above the length do not matter; output bits at and above the length of the result are
0. -/
def Obligations.VectorBitsAboveTheLength : Prop :=
  (∀ (s : State) (L din din' : Nat), (∀ k, k < L → din.testBit k = din'.testBit k) →
    exec (.encode L din) s = exec (.encode L din') s ∧ exec (.decode L din) s = exec (.decode L din') s) ∧
  (∀ (s t : State) (m din : Nat), s.inst.Valid → exec (.encode m din) s = .next t → t.rsp.dout < 2 ^ t.rsp.y) ∧
  (∀ (s t : State) (n din : Nat), exec (.decode n din) s = .next t → t.rsp.dout < 2 ^ n) ∧
  (∀ (s t : State) (i n : Nat), exec (.cover i n) s = .next t → t.rsp.dout < 2 ^ n)

/-- R25: every length within the capacity is served, the empty one, the short and the unreachable ones included;
a length above it gets `INVALID`. -/
def Obligations.LengthsWithinCapacityAreServed : Prop :=
  ∀ s : State, s.inst.Valid →
    (∀ n din, n ≤ s.inst.N_MAX →
      ∃ t, exec (.decode n din) s = .next t ∧ t.rsp.status ≠ .invalid) ∧
    (∀ m din, m ≤ mMax s.inst → ∃ t, exec (.encode m din) s = .next t ∧ t.rsp.status = .ok) ∧
    (∀ i n, n ≤ s.inst.N_MAX → ∃ t, exec (.cover i n) s = .next t ∧ t.rsp.status = .ok) ∧
    (∀ n din, s.inst.N_MAX < n → exec (.decode n din) s = .next { s with rsp := ⟨.invalid, 0, 0⟩ }) ∧
    (∀ m din, mMax s.inst < m → exec (.encode m din) s = .next { s with rsp := ⟨.invalid, 0, 0⟩ }) ∧
    (∀ i n, s.inst.N_MAX < n → exec (.cover i n) s = .next { s with rsp := ⟨.invalid, 0, 0⟩ })

/-- R28: the parity checks may be taken in any order, in the Encoder and in the Decoder, and no parity position
lies in the covering set of another check. -/
def Obligations.ChecksMayBeTakenInAnyOrder : Prop :=
  (∀ (data : BitSeq) (checks : List Nat), List.Perm checks (List.range (rEnc data.length)) →
    storeParities (placeData (positions (nOf data.length)) data) checks = Hamming.encode data) ∧
  (∀ (code : BitSeq) (checks : List Nat), List.Perm checks (List.range (rDec code.length)) →
    syndromeOver code checks = syndrome code) ∧
  (∀ i k n, k ≠ i → parityPos k ∉ coveredPositions i n)

/-! ### Words -/

/-- R30: the request word is `{din, b, a, op}`, of `3 + 2*XW + N_MAX` bits, each field in its place; every word of
that width is the word of its own fields. -/
def Obligations.RequestWordLayout : Prop :=
  ∀ p : Params,
    (∀ q : Request, q.Fits p →
      q.toWord p < 2 ^ (3 + 2 * p.XW + p.N_MAX) ∧
      q.toWord p % 2 ^ 3 = q.op.toNat ∧
      q.toWord p / 2 ^ 3 % 2 ^ p.XW = q.a ∧
      q.toWord p / 2 ^ (p.XW + 3) % 2 ^ p.XW = q.b ∧
      q.toWord p / 2 ^ (2 * p.XW + 3) = q.din ∧
      Request.ofWord p (q.toWord p) = q) ∧
    (∀ w, w < 2 ^ (3 + 2 * p.XW + p.N_MAX) → (Request.ofWord p w).toWord p = w)

/-- R31: the response word is `{dout, y, status}`, of `2 + XW + N_MAX` bits, each field in its place. -/
def Obligations.ResponseWordLayout : Prop :=
  ∀ p : Params,
    (∀ r : Response, r.Fits p →
      r.toWord p < 2 ^ (2 + p.XW + p.N_MAX) ∧
      r.toWord p % 2 ^ 2 = r.status.code.toNat ∧
      r.toWord p / 2 ^ 2 % 2 ^ p.XW = r.y ∧
      r.toWord p / 2 ^ (p.XW + 2) = r.dout ∧
      Response.ofWord p (r.toWord p) = r) ∧
    (∀ w, w < 2 ^ (2 + p.XW + p.N_MAX) → (Response.ofWord p w).toWord p = w)

/-- R32: the operation codes, and only `op` selects the operation. -/
def Obligations.OperationCodeSelectsTheOperation : Prop :=
  (∀ q : Request, (decodeRequest q).opcode = q.op) ∧
  (∀ a b din, decodeRequest ⟨0#3, a, b, din⟩ = .pcount a ∧ decodeRequest ⟨1#3, a, b, din⟩ = .ispow2 a ∧
    decodeRequest ⟨2#3, a, b, din⟩ = .encode a din ∧ decodeRequest ⟨3#3, a, b, din⟩ = .decode a din ∧
    decodeRequest ⟨4#3, a, b, din⟩ = .cover b a ∧ decodeRequest ⟨5#3, a, b, din⟩ = .reserved5 ∧
    decodeRequest ⟨6#3, a, b, din⟩ = .reserved6 ∧ decodeRequest ⟨7#3, a, b, din⟩ = .reserved7)

/-- Decoding the word of a well-formed instruction gives the instruction back, on every instance. -/
def Obligations.DecodeInvertsEncode : Prop :=
  ∀ (p : Params) (i : Instr), i.wellFormed p = true → Sys2Proof.decode p (Sys2Proof.encode p i) = .ok i

/-- What is decoded is a well-formed instruction with the word's operation code; the decoder refuses exactly the
numbers wider than the request word (the refusal is the model's choice, log entry 6). -/
def Obligations.DecodedInstructionIsWellFormed : Prop :=
  ∀ (p : Params) (w : Nat),
    (∀ i, Sys2Proof.decode p w = .ok i → i.wellFormed p = true ∧ i.opcode.toNat = w % 8) ∧
    (Sys2Proof.decode p w = .error .widerThanRequest ↔ 2 ^ p.reqBits ≤ w)

/-- Words written out from R30's layout decode to the instructions they stand for (spec/95_test_vectors.md 2.1,
2.2, 2.4, 2.7, 2.9, 2.10). -/
def Obligations.WordsOfTheTestVectorsDecode : Prop :=
  Sys2Proof.decode Params.ref31 0x7f8 = .ok (.pcount 255) ∧
  Sys2Proof.decode Params.ref31 0x401 = .ok (.ispow2 128) ∧
  Sys2Proof.decode Params.ref31 0x680022 = .ok (.encode 4 0xd) ∧
  Sys2Proof.decode Params.ref31 0x3b0003b = .ok (.decode 7 0x76) ∧
  Sys2Proof.decode Params.ref31 0x640fc = .ok (.cover 200 31) ∧
  Sys2Proof.decode Params.ref31 0x3ffffffffffff = .ok .reserved7

/-- A step runs the instruction that the request word on the input port decodes to, and nothing is done around
it. -/
def Obligations.StepRunsTheDecodedInstruction : Prop :=
  (∀ (s : State) (i : Instr), s.req.Fits s.inst →
    Sys2Proof.decode s.inst (s.req.toWord s.inst) = .ok i → step s = exec i s) ∧
  (∀ (s : State) (i : Instr), i.wellFormed s.inst = true →
    step (s.withFetchWord s.inst.reqBits (Sys2Proof.encode s.inst i)) =
      exec i (s.withFetchWord s.inst.reqBits (Sys2Proof.encode s.inst i)))

/-! ### Encoder -/

/-- R47: the codeword of `data`, position by position: its length, its data bits, and each parity bit as the XOR of
the data bits its check covers. -/
def Obligations.CodewordPositionByPosition : Prop :=
  ∀ data : BitSeq,
    (Hamming.encode data).length = data.length + rEnc data.length ∧
    (∀ k, 1 ≤ k → k ≤ data.length → bitAt (Hamming.encode data) (dataPos k) = bitAt data k) ∧
    (∀ i, i < rEnc data.length → bitAt (Hamming.encode data) (2 ^ i) =
      parity data ((positions data.length).filter (fun k => (dataPos k).testBit i))) ∧
    (∀ i, i < rEnc data.length → bitAt (Hamming.encode data) (2 ^ i) =
      encoderParity (Hamming.encode data) i) ∧
    (∀ checks, List.Perm checks (List.range (rEnc data.length)) →
      storeParities (placeData (positions (nOf data.length)) data) checks = Hamming.encode data)

/-- R48: `ENCODE` answers the codeword and its length when it fits the instance, and `INVALID` otherwise; `b` and
the bits of `din` at and above the length do not matter; its corner cases and worked example. -/
def Obligations.EncodeAnswersTheCodeword : Prop :=
  (∀ (s : State) (m din : Nat), s.inst.Valid →
    (m + rEnc m ≤ s.inst.N_MAX →
      exec (.encode m din) s =
        .next { s with rsp := ⟨.ok, m + rEnc m, vec (Hamming.encode (seq din m))⟩ }) ∧
    (s.inst.N_MAX < m + rEnc m → exec (.encode m din) s = .next { s with rsp := ⟨.invalid, 0, 0⟩ }) ∧
    (s.inst.N_MAX < m + rEnc m ↔ mMax s.inst < m) ∧
    exec (.encode m (din % 2 ^ m)) s = exec (.encode m din) s ∧
    (∀ b, step (s.present ⟨2#3, m, b, din⟩) = exec (.encode m din) (s.present ⟨2#3, m, b, din⟩))) ∧
  (∀ f, vec (Hamming.encode (seq f 0)) = 0) ∧ Hamming.encode [] = [false] ∧
  (∀ d, Hamming.encode [d] = [d, d, d]) ∧
  (∀ m, Hamming.encode (List.replicate m false) = List.replicate (nOf m) false) ∧
  mMax Params.ref31 = 26 ∧
  Hamming.encode [true, false, true, true] = [false, true, true, false, false, true, true]

/-- R49: after `encode` every check is even over its whole covering set, the syndrome is 0 and the decoder reports
NoError, for every DataVector. -/
def Obligations.EncodedWordHasSyndromeZero : Prop :=
  ∀ data : BitSeq,
    (∀ i, i < rEnc data.length →
      parity (Hamming.encode data) (coveredPositions i (Hamming.encode data).length) = false) ∧
    syndrome (Hamming.encode data) = 0 ∧ decodeAndCorrect (Hamming.encode data) = .noError

/-- R50: the walk of step 3 uses every data bit exactly once and never runs out: the powers of two among the
positions of an encoded length are exactly `2^0 .. 2^(r-1)`, and what the walk placed reads back as the data. -/
def Obligations.WalkPlacesEveryDataBitOnce : Prop :=
  (∀ m, parityPositions (nOf m) = (List.range (rEnc m)).map (fun i => 2 ^ i) ∧
    (dataPositions (nOf m)).length = m) ∧
  (∀ data : BitSeq, extractData (placeData (positions (nOf data.length)) data) = data)

/-- R51: extracting the data positions of a codeword gives the data back; how many bits are extracted. -/
def Obligations.ExtractionRecoversTheData : Prop :=
  (∀ data : BitSeq, extractData (Hamming.encode data) = data) ∧
  (∀ c : BitSeq, (extractData c).length = c.length - (parityPositions c.length).length)

/-- The Encoder is injective on one length and linear over XOR (spec/41_encoder.md, after R51). -/
def Obligations.EncodeIsLinearAndInjective : Prop :=
  ∀ d e : BitSeq, d.length = e.length →
    Hamming.encode (List.zipWith xor d e) = List.zipWith xor (Hamming.encode d) (Hamming.encode e) ∧
    (Hamming.encode d = Hamming.encode e → d = e)

/-- Two different valid codewords of one length differ in at least three positions (spec/41_encoder.md, after
R51). -/
def Obligations.CodewordsDifferInThreePositions : Prop :=
  ∀ d e : BitSeq, d.length = e.length → d ≠ e →
    3 ≤ ((positions (nOf d.length)).filter
      (fun j => bitAt (Hamming.encode d) j != bitAt (Hamming.encode e) j)).length

/-- A sequence is a valid codeword exactly when its length is reachable and its syndrome is 0 (spec/00_scope.md,
Glossary "Valid codeword"). -/
def Obligations.ValidCodewordsAreSyndromeZero : Prop :=
  ∀ c : BitSeq,
    (∃ data, c = Hamming.encode data) ↔ (∃ m, c.length = nOf m) ∧ syndrome c = 0

/-! ### Decoder/Corrector -/

/-- R52: bit `i` of the syndrome is set exactly when check `i` fails; its bound; it is the XOR of all positions that
hold a 1; it is 0 for the empty and every all-zero sequence. -/
def Obligations.SyndromeIsXorOfSetPositions : Prop :=
  (∀ (code : BitSeq) (i : Nat), (syndrome code).testBit i =
    (decide (i < rDec code.length) && parity code (coveredPositions i code.length))) ∧
  (∀ code : BitSeq, syndrome code ≤ 2 ^ rDec code.length - 1) ∧
  (∀ code : BitSeq, syndrome code =
    ((positions code.length).filter (fun j => bitAt code j)).foldl (fun x j => x ^^^ j) 0) ∧
  (∀ n, syndrome (List.replicate n false) = 0) ∧
  (∀ (code : BitSeq) (checks : List Nat), List.Perm checks (List.range (rDec code.length)) →
    syndromeOver code checks = syndrome code)

/-- R53: exactly one class per syndrome, and when `Uncorrectable` can occur at all. -/
def Obligations.SyndromeClassesPartition : Prop :=
  (∀ s n, (classify s n = .noError ↔ s = 0) ∧ (classify s n = .correctable ↔ 0 < s ∧ s ≤ n) ∧
    (classify s n = .uncorrectable ↔ n < s)) ∧
  (∀ code : BitSeq, classify (syndrome code) code.length = .uncorrectable →
    code.length + 1 < 2 ^ rDec code.length ∧ ∀ r, code.length ≠ 2 ^ r - 1)

/-- R54: the corrector flips exactly the bit the syndrome names and the result has syndrome 0; in the other two
outcomes there is no corrected codeword. -/
def Obligations.CorrectorFlipsTheNamedBit : Prop :=
  ∀ code : BitSeq,
    (0 < syndrome code → syndrome code ≤ code.length →
      ∃ c, decodeAndCorrect code = .corrected (syndrome code) c ∧ c.length = code.length ∧
        bitAt c (syndrome code) = !bitAt code (syndrome code) ∧
        (∀ j, j ≠ syndrome code → bitAt c j = bitAt code j) ∧ syndrome c = 0) ∧
    (syndrome code = 0 → decodeAndCorrect code = .noError) ∧
    (code.length < syndrome code → decodeAndCorrect code = .uncorrectable (syndrome code))

/-- R56: what `DECODE` answers in each case; `b` and the bits of `din` at and above the length do not matter; its
corner cases and worked examples. -/
def Obligations.DecodeAnswersBySyndrome : Prop :=
  (∀ (s : State) (n din : Nat), s.inst.Valid →
    (s.inst.N_MAX < n → exec (.decode n din) s = .next { s with rsp := ⟨.invalid, 0, 0⟩ }) ∧
    (n ≤ s.inst.N_MAX → syndrome (seq din n) = 0 →
      exec (.decode n din) s = .next { s with rsp := ⟨.ok, 0, 0⟩ }) ∧
    (n ≤ s.inst.N_MAX → 0 < syndrome (seq din n) → syndrome (seq din n) ≤ n →
      exec (.decode n din) s = .next
        { s with rsp := ⟨.corrected, syndrome (seq din n), vec (flip (seq din n) (syndrome (seq din n)))⟩ }) ∧
    (n ≤ s.inst.N_MAX → n < syndrome (seq din n) →
      exec (.decode n din) s = .next { s with rsp := ⟨.uncorrectable, syndrome (seq din n), 0⟩ }) ∧
    exec (.decode n (din % 2 ^ n)) s = exec (.decode n din) s ∧
    (∀ b, step (s.present ⟨3#3, n, b, din⟩) = exec (.decode n din) (s.present ⟨3#3, n, b, din⟩))) ∧
  decodeAndCorrect [] = .noError ∧ decodeAndCorrect [false] = .noError ∧
  decodeAndCorrect [true] = .corrected 1 [false] ∧
  decodeAndCorrect [false, false] = .noError ∧ decodeAndCorrect [true, false] = .corrected 1 [false, false] ∧
  decodeAndCorrect [false, true] = .corrected 2 [false, false] ∧
  decodeAndCorrect [true, true] = .uncorrectable 3 ∧
  decodeAndCorrect [true, true, true, false, false, true, true] =
    .corrected 1 [false, true, true, false, false, true, true] ∧
  decodeAndCorrect [false, true, true, false, true, true, true] =
    .corrected 5 [false, true, true, false, false, true, true] ∧
  decodeAndCorrect [false, true, true, false, false, true, true] = .noError

/-- R57: flipping any one bit of any codeword is corrected, naming the position. -/
def Obligations.EverySingleFlipIsCorrected : Prop :=
  ∀ (data : BitSeq) (p : Nat), 1 ≤ p → p ≤ (Hamming.encode data).length →
    decodeAndCorrect (flip (Hamming.encode data) p) = .corrected p (Hamming.encode data)

/-- R57 on the machine: encode, flip any one bit of the codeword on its way, decode: the response is `CORRECTED`
with the position and the codeword that was sent, on every instance. -/
def Obligations.SingleFlipIsCorrectedOnThePorts : Prop :=
  ∀ (s t : State) (m din b b' p : Nat), s.inst.Valid → m + rEnc m ≤ s.inst.N_MAX →
    step (s.present ⟨2#3, m, b, din⟩) = .next t → 1 ≤ p → p ≤ t.rsp.y →
    step (t.present ⟨3#3, t.rsp.y, b', t.rsp.dout ^^^ 2 ^ (p - 1)⟩) =
      .next { t.present ⟨3#3, t.rsp.y, b', t.rsp.dout ^^^ 2 ^ (p - 1)⟩ with
        rsp := ⟨.corrected, p, t.rsp.dout⟩ }

/-- The round trip on the machine (R49, R51, R76): an encoded word decodes to `NOERR`, and the host recovers the
data length and the data from the response of `ENCODE`. -/
def Obligations.RoundTripOnThePorts : Prop :=
  ∀ (s t : State) (m din b b' : Nat), s.inst.Valid → m + rEnc m ≤ s.inst.N_MAX →
    step (s.present ⟨2#3, m, b, din⟩) = .next t →
    step (t.present ⟨3#3, t.rsp.y, b', t.rsp.dout⟩) =
      .next { t.present ⟨3#3, t.rsp.y, b', t.rsp.dout⟩ with rsp := ⟨.ok, 0, 0⟩ } ∧
    m = t.rsp.y - rDec t.rsp.y ∧ extractData (seq t.rsp.dout t.rsp.y) = seq din m

/-- R58: what the rules give for two flipped bits, and that three flipped bits can give every outcome.  Each of
the last three clauses flips three positions of the codeword, so its length is at least the largest of them. -/
def Obligations.DoubleFlipsAreNeverSeenAsNoError : Prop :=
  (∀ (data : BitSeq) (p q : Nat), 1 ≤ p → p ≤ (Hamming.encode data).length → 1 ≤ q →
    q ≤ (Hamming.encode data).length → p ≠ q →
    syndrome (flip (flip (Hamming.encode data) p) q) = p ^^^ q ∧ p ^^^ q ≠ 0 ∧
    decodeAndCorrect (flip (flip (Hamming.encode data) p) q) ≠ .noError ∧
    (p ^^^ q ≤ (Hamming.encode data).length → ∃ c,
      decodeAndCorrect (flip (flip (Hamming.encode data) p) q) = .corrected (p ^^^ q) c ∧
      ((positions c.length).filter (fun j => bitAt c j != bitAt (Hamming.encode data) j)).length = 3) ∧
    ((Hamming.encode data).length < p ^^^ q →
      decodeAndCorrect (flip (flip (Hamming.encode data) p) q) = .uncorrectable (p ^^^ q))) ∧
  (∃ data, 3 ≤ (Hamming.encode data).length ∧
    decodeAndCorrect (flip (flip (flip (Hamming.encode data) 1) 2) 3) = .noError) ∧
  (∃ data s c, 4 ≤ (Hamming.encode data).length ∧
    decodeAndCorrect (flip (flip (flip (Hamming.encode data) 1) 2) 4) = .corrected s c) ∧
  (∃ data s, 4 ≤ (Hamming.encode data).length ∧
    decodeAndCorrect (flip (flip (flip (Hamming.encode data) 1) 2) 4) = .uncorrectable s)

/-! ### Diagnostic helper -/

/-- R59: the parity positions of a codeword are those of the checks below `rDec(n)`; the lowest covered position of
a check is its parity position. -/
def Obligations.ParityPositionsOfALength : Prop :=
  (∀ i, parityPos i = 2 ^ i) ∧
  (∀ n, parityPositions n = (List.range (rDec n)).map parityPos ∧ (parityPositions n).length = rDec n) ∧
  (∀ i n, (coveredPositions i n).head? = if 2 ^ i ≤ n then some (2 ^ i) else none)

/-- R60: the members of a covering set, when it is empty, how the two algorithms use it, and which checks cover a
position. -/
def Obligations.CoveringSetsAreExact : Prop :=
  (∀ i n j, j ∈ coveredPositions i n ↔ (1 ≤ j ∧ j ≤ n) ∧ j.testBit i = true) ∧
  (∀ i n, 2 ^ i ∈ coveredPositions i n ↔ 2 ^ i ≤ n) ∧
  (∀ i n, coveredPositions i n = [] ↔ n < 2 ^ i) ∧
  (∀ code i, decoderParity code i = parity code (coveredPositions i code.length)) ∧
  (∀ c i, encoderParity c i = parity c ((coveredPositions i c.length).filter (fun j => j != 2 ^ i))) ∧
  (∀ n j, 1 ≤ j → j ≤ n → ∃ i, i < rDec n ∧ j ∈ coveredPositions i n) ∧
  (∀ n k i, 2 ^ k ≤ n → (2 ^ k ∈ coveredPositions i n ↔ i = k)) ∧
  (∀ n j : Nat, 1 ≤ j → j ≤ n → isPowerOfTwo j = false →
    ∃ i k, i < k ∧ j ∈ coveredPositions i n ∧ j ∈ coveredPositions k n)

/-- R61: `COVER` answers the mask of the covering set, or `INVALID` above the capacity; `din` does not matter; its
corner cases and worked examples. -/
def Obligations.CoverAnswersTheMask : Prop :=
  (∀ (s : State) (i n : Nat), s.inst.Valid →
    (s.inst.N_MAX < n → exec (.cover i n) s = .next { s with rsp := ⟨.invalid, 0, 0⟩ }) ∧
    (n ≤ s.inst.N_MAX →
      (∃ mask, exec (.cover i n) s = .next { s with rsp := ⟨.ok, 0, mask⟩ } ∧
        (∀ k, mask.testBit k = true ↔ k + 1 ∈ coveredPositions i n) ∧
        (rDec n ≤ i → mask = 0) ∧ (s.inst.XW ≤ i → mask = 0))) ∧
    (∀ din, step (s.present ⟨4#3, n, i, din⟩) = exec (.cover i n) (s.present ⟨4#3, n, i, din⟩))) ∧
  (∀ i, coveredPositions i 0 = []) ∧
  (∀ n j, j ∈ coveredPositions 0 n ↔ (1 ≤ j ∧ j ≤ n) ∧ j % 2 = 1) ∧
  (∀ k, coveredPositions k (2 ^ k) = [2 ^ k]) ∧
  coveredPositions 1 7 = [2, 3, 6, 7] ∧ coveredPositions 0 7 = [1, 3, 5, 7] ∧
  coveredPositions 2 7 = [4, 5, 6, 7] ∧ coveredPositions 3 7 = []

/-! ### Responses, reserved codes, ignored fields -/

/-- R34: each reserved code answers `INVALID` with zeros, whatever the other fields hold. -/
def Obligations.ReservedCodesAnswerInvalid : Prop :=
  ∀ (s : State) (a b din : Nat),
    exec .reserved5 s = .next { s with rsp := ⟨.invalid, 0, 0⟩ } ∧
    exec .reserved6 s = .next { s with rsp := ⟨.invalid, 0, 0⟩ } ∧
    exec .reserved7 s = .next { s with rsp := ⟨.invalid, 0, 0⟩ } ∧
    ∀ op : BitVec 3, 5 ≤ op.toNat →
      step (s.present ⟨op, a, b, din⟩) =
        .next { s.present ⟨op, a, b, din⟩ with rsp := ⟨.invalid, 0, 0⟩ }

/-- R35: two requests that differ only in fields or bits their operation does not use get the same response, on
any two cores of the same instance. -/
def Obligations.IgnoredBitsDoNotMatter : Prop :=
  ∀ (s t : State) (q q' : Request), s.inst = t.inst → q.op = q'.op →
    (q.op.toNat ≤ 4 → q.a = q'.a) →
    (q.op = 4#3 → q.b = q'.b) →
    (q.op = 2#3 ∨ q.op = 3#3 → ∀ k, k < q.a → q.din.testBit k = q'.din.testBit k) →
    ∃ r, step (s.present q) = .next { s.present q with rsp := r } ∧
      step (t.present q') = .next { t.present q' with rsp := r }

/-- R36: the status codes, and that `CORRECTED` and `UNCORRECTABLE` come from `DECODE` only. -/
def Obligations.StatusCodesAndProducers : Prop :=
  Status.ok.code = 0#2 ∧ Status.corrected.code = 1#2 ∧ Status.uncorrectable.code = 2#2 ∧
  Status.invalid.code = 3#2 ∧ (∀ c : BitVec 2, (Status.ofCode c).code = c) ∧
  (∀ (i : Instr) (s t : State), exec i s = .next t →
    t.rsp.status = .corrected ∨ t.rsp.status = .uncorrectable → ∃ n din, i = .decode n din) ∧
  (∀ (n din : Nat) (s t : State), exec (.decode n din) s = .next t → t.rsp.status = .ok →
    syndrome (seq din n) = 0)

/-- R64: `INVALID` has exactly the causes (a) to (d), and records nothing about the cause; empty input is no
cause. -/
def Obligations.InvalidHasExactlyFourCauses : Prop :=
  ∀ s : State, ∃ t, step s = .next t ∧
    (t.rsp.status = .invalid ↔
      5 ≤ s.req.op.toNat ∨
      (s.req.op = 2#3 ∧ s.inst.N_MAX < s.req.a + rEnc s.req.a) ∨
      (s.req.op = 3#3 ∧ s.inst.N_MAX < s.req.a) ∨
      (s.req.op = 4#3 ∧ s.inst.N_MAX < s.req.a)) ∧
    (t.rsp.status = .invalid → t.rsp.y = 0 ∧ t.rsp.dout = 0) ∧
    (s.req.op.toNat ≤ 1 → t.rsp.status ≠ .invalid) ∧
    (s.inst.Valid → s.req.op.toNat ≤ 4 → s.req.a = 0 → t.rsp.status ≠ .invalid)

/-- The widths of R6 suffice: on a valid instance no length, check count, syndrome or parity count is cut by `y`
(consequences stated after R6), and no codeword, corrected codeword or covering mask is cut by `dout`. -/
def Obligations.ResultsFitTheirFields : Prop :=
  ∀ p : Params, p.Valid →
    (∀ n, n ≤ p.N_MAX → n < 2 ^ p.XW ∧ rDec n ≤ p.XW) ∧
    (∀ code : BitSeq, code.length ≤ p.N_MAX → syndrome code < 2 ^ p.XW) ∧
    (∀ m, m < 2 ^ p.XW → rEnc m ≤ p.XW + 1) ∧ p.XW + 1 < 2 ^ p.XW ∧
    (∀ data : BitSeq, data.length ≤ mMax p → vec (Hamming.encode data) < 2 ^ p.N_MAX) ∧
    (∀ code : BitSeq, code.length ≤ p.N_MAX → vec (flip code (syndrome code)) < 2 ^ p.N_MAX) ∧
    (∀ i n, n ≤ p.N_MAX → maskOf (coveredPositions i n) < 2 ^ p.N_MAX)

/-! ### The whole machine -/

/-- R62: every request, whatever its bits and on whatever instance, gets exactly one response, and nothing but the
response changes. -/
def Obligations.EveryRequestIsAnswered : Prop :=
  ∀ s : State, ∃ r : Response, step s = .next { s with rsp := r }

/-- R10: the response is a function of the request and the instance parameters alone. -/
def Obligations.ResponseIsAFunctionOfTheRequest : Prop :=
  ∀ s t : State, s.req = t.req → s.inst = t.inst →
    ∃ r, step s = .next { s with rsp := r } ∧ step t = .next { t with rsp := r }

/-- R15: an operation never changes its input; nor does it change the instance. -/
def Obligations.OperationsLeaveTheirInput : Prop :=
  ∀ (i : Instr) (s t : State), exec i s = .next t → t.req = s.req ∧ t.inst = s.inst

/-- R26: repeating a request gives the same response and changes nothing. -/
def Obligations.RepeatingARequestChangesNothing : Prop :=
  ∀ s t : State, step s = .next t → step t = .next t ∧ t.settled

/-- R27: in any sequence of requests, from any state of the core, the response to each request is the one it gets
alone. -/
def Obligations.RequestsDoNotInfluenceEachOther : Prop :=
  ∀ (s t : State) (before after : List Request) (q : Request), s.inst = t.inst →
    ∃ r, step (t.present q) = .next { t.present q with rsp := r } ∧
      (serve s (before ++ q :: after))[before.length]? = some (some r)

/-- Every step keeps the invariant: the instance meets R6, the ports hold values that fit them, and the response has
one of the forms of R63 and R64. -/
def Obligations.StepKeepsTheStateSafe : Prop :=
  ∀ s t : State, s.Safe → step s = .next t → t.Safe

/-- The host keeps the invariant too: presenting a request that fits the input port keeps it, and it holds when
power comes up at a valid instance with any request that fits (R70). -/
def Obligations.PresentKeepsTheStateSafe : Prop :=
  (∀ (s : State) (q : Request), s.inst.Valid → q.Fits s.inst → (s.present q).Safe) ∧
  (∀ (p : Params) (q : Request), p.Valid → q.Fits p → (State.powerUp p q).Safe)

/-- The invariant holds in `State.reset`, whose values are the model's choice (log entries 2, 3 and 4): the spec
gives no reset values. -/
def Obligations.ResetStateIsSafe : Prop := State.reset.Safe

/-- What stands on the ports when power comes up is the model's choice (log entries 2, 3 and 4); with it, the
response is already the one the operation rules give the request (R70). -/
def Obligations.ResetResponseBelongsToItsRequest : Prop :=
  State.reset.settled ∧ State.reset.inst = ⟨31, 8⟩ ∧ State.reset.req = ⟨0#3, 0, 0, 0⟩ ∧
  State.reset = State.powerUp Params.ref31 ⟨0#3, 0, 0, 0⟩

/-- R70: "The response fields are a function of the request fields at all times": when power comes up, whatever
request is present and on whatever instance; in the moment the host presents a request; and after a step.  In each
of these the output port shows what a step answers, so the step changes nothing. -/
def Obligations.ResponseFollowsTheRequestAtAllTimes : Prop :=
  (∀ (p : Params) (q : Request), (State.powerUp p q).inst = p ∧ (State.powerUp p q).req = q ∧
    (State.powerUp p q).settled) ∧
  (∀ (s : State) (q : Request), (s.present q).inst = s.inst ∧ (s.present q).req = q ∧
    (s.present q).settled) ∧
  (∀ s t : State, step s = .next t → t.settled)

/-- R72: "When a host changes a request, the response of the old request is gone; nothing queues": what the ports
show depends on the request presented last and on the instance, as if power had come up with it. -/
def Obligations.ChangedRequestLeavesNothingBehind : Prop :=
  (∀ (s : State) (q q' : Request), (s.present q).present q' = s.present q') ∧
  (∀ (s t : State) (q : Request), s.inst = t.inst → s.present q = t.present q) ∧
  (∀ (s : State) (q : Request), s.present q = State.powerUp s.inst q)

/-- R37, R38: a written `ENCODE` or `DECODE` line means its bits: the host's line gives the codeword of the bits,
and the host's `FLIP` of it decodes back, within the capacity; above it, as far as field `a` holds the length, the
line gets `INVALID` (R64).  That a word longer than `N_MAX`, which `din` cannot hold, is a request at all is the
model's choice (log entry 18): the clause on `DECODE` rests on it, and the one on `ENCODE` from `N_MAX + 1` bits
up. -/
def Obligations.WrittenLinesMeanTheirBits : Prop :=
  ∀ (s : State) (bits : BitSeq) (p : Nat), s.inst.Valid →
    (bits.length ≤ mMax s.inst →
      lineResult s (.request (encodeLine bits)) =
        some (.response ⟨.ok, nOf bits.length, vec (Hamming.encode bits)⟩) ∧
      lineResult s (.extract (Hamming.encode bits)) = some (.bits bits) ∧
      (1 ≤ p → p ≤ nOf bits.length → ∃ c,
        lineResult s (.flip (Hamming.encode bits) p) = some (.bits c) ∧
        lineResult s (.request (decodeLine c)) =
          some (.response ⟨.corrected, p, vec (Hamming.encode bits)⟩))) ∧
    (mMax s.inst < bits.length → bits.length < 2 ^ s.inst.XW →
      lineResult s (.request (encodeLine bits)) = some (.response ⟨.invalid, 0, 0⟩)) ∧
    (s.inst.N_MAX < bits.length → bits.length < 2 ^ s.inst.XW →
      lineResult s (.request (decodeLine bits)) = some (.response ⟨.invalid, 0, 0⟩))

/-- R56, R57, R75: when at most one bit of a codeword was flipped, what the host goes on with after a `DECODE`
is the codeword that was sent. -/
def Obligations.HostReceivesTheCodewordSent : Prop :=
  ∀ (s : State) (bits code : BitSeq), s.inst.Valid → bits.length ≤ mMax s.inst →
    (code = Hamming.encode bits ∨ ∃ p, 1 ≤ p ∧ p ≤ nOf bits.length ∧ code = flip (Hamming.encode bits) p) →
    ∃ r, step (s.present (encodeRequest (decodeLine code))) =
        .next { s.present (encodeRequest (decodeLine code)) with rsp := r } ∧
      receive code r = some (Hamming.encode bits)

end
end

