-- ==== Sys2Proof/Laws/Operands.lean ====
section
/-!
SUPPORT. Positions, position reads and writes, parities, and the packing of fields.
-/

namespace Sys2Proof.Hamming

@[simp] theorem mem_positions {n j : Nat} : j ∈ positions n ↔ 1 ≤ j ∧ j ≤ n := by
  rw [positions, List.mem_range'_1]
  omega

@[simp] theorem length_positions (n : Nat) : (positions n).length = n := by simp [positions]

theorem nodup_positions (n : Nat) : (positions n).Nodup := List.nodup_range'

/-- `positions (n + 1)` has one more position, at the end. -/
theorem positions_succ (n : Nat) : positions (n + 1) = positions n ++ [n + 1] := by
  simp [positions, List.range'_concat, Nat.add_comm]

/-! ### Position reads and writes -/

@[simp] theorem bitAt_zero (c : BitSeq) : bitAt c 0 = false := rfl

theorem bitAt_succ (c : BitSeq) (k : Nat) : bitAt c (k + 1) = c.getD k false := rfl

/-- A read beyond the sequence gives 0 (log entry 9). -/
theorem bitAt_of_length_lt {c : BitSeq} {j : Nat} (h : c.length < j) : bitAt c j = false := by
  cases j with
  | zero => rfl
  | succ k => simp [bitAt_succ, List.getElem?_eq_none (Nat.le_of_lt_succ h)]

@[simp] theorem bitAt_cons_one (b : Bit) (c : BitSeq) : bitAt (b :: c) 1 = b := rfl

theorem bitAt_cons_succ (b : Bit) (c : BitSeq) {j : Nat} (h : 1 ≤ j) :
    bitAt (b :: c) (j + 1) = bitAt c j := by
  obtain ⟨k, rfl⟩ := Nat.exists_eq_add_of_le' h
  simp [bitAt_succ]

/-- A sequence is its length and the bits at its positions. -/
theorem ext_bitAt {c d : BitSeq} (hl : c.length = d.length)
    (h : ∀ j, 1 ≤ j → j ≤ c.length → bitAt c j = bitAt d j) : c = d := by
  refine List.ext_getElem hl fun k h₁ h₂ => ?_
  have := h (k + 1) (by omega) h₁
  simpa [bitAt_succ, h₁, h₂] using this

@[simp] theorem length_setAt (c : BitSeq) (j : Nat) (v : Bit) : (setAt c j v).length = c.length := by
  cases j <;> simp [setAt]

/-- All that a position write does: at a position of the sequence the bit is written, and every other position is
as before. -/
theorem bitAt_setAt (c : BitSeq) (j : Nat) (v : Bit) (k : Nat) :
    bitAt (setAt c j v) k = if k = j ∧ 1 ≤ j ∧ j ≤ c.length then v else bitAt c k := by
  cases j with
  | zero => simp [setAt]
  | succ j =>
    cases k with
    | zero => simp
    | succ k =>
      simp only [setAt, bitAt_succ, List.getD_eq_getElem?_getD, List.getElem?_set]
      by_cases h : j = k
      · subst h
        by_cases hl : j < c.length <;> simp [hl]
      · simp [h, Ne.symm h]

theorem bitAt_setAt_self {c : BitSeq} {j : Nat} (v : Bit) (h₁ : 1 ≤ j) (h₂ : j ≤ c.length) :
    bitAt (setAt c j v) j = v := by simp [bitAt_setAt, h₁, h₂]

theorem bitAt_setAt_ne {c : BitSeq} {j k : Nat} (v : Bit) (h : k ≠ j) :
    bitAt (setAt c j v) k = bitAt c k := by simp [bitAt_setAt, h]

@[simp] theorem length_flip (c : BitSeq) (p : Nat) : (flip c p).length = c.length := length_setAt ..

/-- All that a flip does. -/
theorem bitAt_flip (c : BitSeq) (p k : Nat) :
    bitAt (flip c p) k = if k = p ∧ 1 ≤ p ∧ p ≤ c.length then !bitAt c k else bitAt c k := by
  rw [flip, bitAt_setAt]
  split <;> simp_all

/-! ### Parity -/

@[simp] theorem parity_nil (c : BitSeq) : parity c [] = false := rfl

theorem foldl_xor_bitAt (c : BitSeq) (set : List Nat) (b : Bit) :
    set.foldl (fun acc j => acc ^^ bitAt c j) b = (b ^^ parity c set) := by
  induction set generalizing b with
  | nil => simp
  | cons j js ih => simp [parity, ih (b ^^ bitAt c j), ih (bitAt c j)]

@[simp] theorem parity_cons (c : BitSeq) (j : Nat) (set : List Nat) :
    parity c (j :: set) = (bitAt c j ^^ parity c set) := by
  rw [parity, List.foldl_cons, foldl_xor_bitAt, Bool.false_xor]

@[simp] theorem parity_append (c : BitSeq) (s t : List Nat) :
    parity c (s ++ t) = (parity c s ^^ parity c t) := by
  induction s with
  | nil => simp
  | cons j s ih => simp [ih]

/-- Parity depends on the bits at the positions of the set alone. -/
theorem parity_congr {c d : BitSeq} {set : List Nat} (h : ∀ j ∈ set, bitAt c j = bitAt d j) :
    parity c set = parity d set := by
  induction set with
  | nil => rfl
  | cons j js ih => simp [h j (by simp), ih fun k hk => h k (by simp [hk])]

/-- "it is associative and commutative, so the XOR of a finite set of bits does not depend on the order" (R7). -/
theorem parity_perm (c : BitSeq) {s t : List Nat} (h : List.Perm s t) : parity c s = parity c t := by
  induction h with
  | nil => rfl
  | cons j _ ih => simp [ih]
  | swap j k s => simp only [parity_cons, ← Bool.xor_assoc, Bool.xor_comm (bitAt c j)]
  | trans _ _ ih₁ ih₂ => rw [ih₁, ih₂]

/-- A flip changes the parity of exactly the sets that hold the position. -/
theorem parity_flip (c : BitSeq) {p : Nat} (h₁ : 1 ≤ p) (h₂ : p ≤ c.length) {set : List Nat} (hn : set.Nodup) :
    parity (flip c p) set = (decide (p ∈ set) ^^ parity c set) := by
  induction set with
  | nil => simp
  | cons j js ih =>
    rw [List.nodup_cons] at hn
    rw [parity_cons, parity_cons, ih hn.2, bitAt_flip]
    by_cases h : p = j
    · subst h; simp [h₁, h₂, hn.1]
    · simp [h, Ne.symm h]
      simp only [← Bool.xor_assoc, Bool.xor_comm (bitAt c j)]

/-! ### Fields -/

@[simp] theorem length_seq (f L : Nat) : (seq f L).length = L := by simp [seq]

/-- Position `p` of an unpacked sequence is bit `p - 1` of the field. -/
theorem bitAt_seq (f L k : Nat) : bitAt (seq f L) (k + 1) = (decide (k < L) && f.testBit k) := by
  by_cases h : k < L <;> simp [bitAt_succ, seq, h]

/-- Unpacking looks at the bits below the length alone (R24). -/
theorem seq_congr {f g L : Nat} (h : ∀ k, k < L → f.testBit k = g.testBit k) : seq f L = seq g L :=
  List.map_congr_left fun k hk => h k (by simpa using hk)

@[simp] theorem seq_mod_two_pow (f L : Nat) : seq (f % 2 ^ L) L = seq f L :=
  seq_congr fun k hk => by simp [hk]

@[simp] theorem vec_nil : vec [] = 0 := rfl

/-- Bit `k` of a packed sequence is its position `k + 1`. -/
theorem testBit_vec (c : BitSeq) (k : Nat) : (vec c).testBit k = bitAt c (k + 1) := by
  induction c generalizing k with
  | nil => simp [bitAt_succ]
  | cons b c ih =>
    have hb : b.toNat < 2 := by cases b <;> decide
    cases k with
    | zero => cases b <;> simp [vec, Nat.testBit_zero, Nat.add_mod, bitAt_succ]
    | succ k =>
      have : (b.toNat + 2 * vec c) / 2 = vec c := by omega
      rw [vec, Nat.testBit_succ, this, ih]
      simp [bitAt_succ]

/-- A packed sequence has no bit at or above its length. -/
theorem vec_lt (c : BitSeq) : vec c < 2 ^ c.length := by
  induction c with
  | nil => simp
  | cons b c ih =>
    have hb : b.toNat < 2 := by cases b <;> decide
    simp only [vec, List.length_cons, Nat.pow_succ]
    omega

/-- Bit `k` of a mask says whether position `k + 1` is in the set, for a set of positions. -/
theorem testBit_maskOf {set : List Nat} (h : ∀ j ∈ set, 1 ≤ j) (k : Nat) :
    (maskOf set).testBit k = decide (k + 1 ∈ set) := by
  suffices H : ∀ (l : List Nat) (acc : Nat), (∀ j ∈ l, 1 ≤ j) →
      (l.foldl (fun acc j => acc ||| 2 ^ (j - 1)) acc).testBit k =
        (acc.testBit k || decide (k + 1 ∈ l)) by
    simp [maskOf, H set 0 h]
  intro l
  induction l with
  | nil => simp
  | cons j js ih =>
    intro acc hj
    have h1 := hj j (by simp)
    rw [List.foldl_cons, ih _ fun i hi => hj i (by simp [hi])]
    have : (j - 1 = k) ↔ (k + 1 = j) := by omega
    simp [Nat.testBit_or, Nat.testBit_two_pow, this, Bool.or_assoc]

end Sys2Proof.Hamming
end

