-- ==== Sys2Proof/Laws/ParityPlanner.lean ====
section
/-!
SUPPORT. The shared search for a check count, and the power-of-two test on positions.
-/

namespace Sys2Proof.Hamming

/-- All that the search does when some count within its rounds meets the budget: it stops at a count that
does, not below its start, and every count it passed did not. -/
theorem minimalCheckCount_spec {budget : Nat → Nat} {rounds start : Nat}
    (h : ∃ r, start ≤ r ∧ r ≤ start + rounds ∧ budget r ≤ 2 ^ r) :
    let r := minimalCheckCount budget rounds start
    start ≤ r ∧ r ≤ start + rounds ∧ budget r ≤ 2 ^ r ∧ ∀ q, start ≤ q → q < r → 2 ^ q < budget q := by
  induction rounds generalizing start with
  | zero =>
    obtain ⟨r, h₁, h₂, h₃⟩ := h
    obtain rfl : r = start := by omega
    exact ⟨le_rfl, le_rfl, h₃, fun q _ _ => by simp [minimalCheckCount] at *; omega⟩
  | succ rounds ih =>
    obtain ⟨r, h₁, h₂, h₃⟩ := h
    by_cases hb : 2 ^ start < budget start
    · have hne : r ≠ start := by rintro rfl; omega
      obtain ⟨i₁, i₂, i₃, i₄⟩ := ih (start := start + 1) ⟨r, by omega, by omega, h₃⟩
      simp only [minimalCheckCount, hb, if_true]
      refine ⟨by omega, by omega, i₃, fun q hq hq' => ?_⟩
      rcases Nat.eq_or_lt_of_le hq with rfl | hlt
      · exact hb
      · exact i₄ q hlt hq'
    · simp only [minimalCheckCount, hb, if_false]
      exact ⟨le_rfl, by omega, by omega, fun q _ _ => by omega⟩

/-- The test on a position is the test `(j AND (j - 1)) = 0` with `j = 0` excluded. -/
theorem isPowerOfTwo_natCast (j : Nat) :
    isPowerOfTwo (j : Int) = (decide (0 < j) && (j &&& (j - 1) == 0)) := by
  rcases Nat.eq_zero_or_pos j with rfl | h
  · rfl
  · have : ¬ ((j : Int) ≤ 0) := by omega
    simp only [isPowerOfTwo, this, if_false, Int.toNat_natCast, h, decide_true, Bool.true_and]

theorem mem_parityPositions {n j : Nat} :
    j ∈ parityPositions n ↔ (1 ≤ j ∧ j ≤ n) ∧ isPowerOfTwo j = true := by
  simp [parityPositions]

theorem mem_dataPositions {n j : Nat} :
    j ∈ dataPositions n ↔ (1 ≤ j ∧ j ≤ n) ∧ isPowerOfTwo j = false := by
  simp [dataPositions]

end Sys2Proof.Hamming
end

