-- ==== Sys2Proof/Laws/Codec.lean ====
section
/-!
SUPPORT. Covering sets, and the parts of the Encoder and of the Decoder.
-/

namespace Sys2Proof.Hamming

/-- `(j AND 2^i) != 0` says exactly that bit `i` of `j` is 1 (R9). -/
theorem and_two_pow_ne_zero (j i : Nat) : (j &&& 2 ^ i != 0) = j.testBit i := by
  rw [Nat.and_two_pow]
  cases j.testBit i <;> simp

theorem coveredPositions_eq (i n : Nat) :
    coveredPositions i n = (positions n).filter (fun j => j.testBit i) := by
  simp only [coveredPositions, parityPos, and_two_pow_ne_zero]

theorem mem_coveredPositions {i n j : Nat} :
    j ∈ coveredPositions i n ↔ (1 ≤ j ∧ j ≤ n) ∧ j.testBit i = true := by
  simp [coveredPositions_eq]

@[simp] theorem placeData_nil (data : BitSeq) : placeData [] data = [] := rfl

@[simp] theorem length_placeData (js : List Nat) (data : BitSeq) : (placeData js data).length = js.length := by
  induction js generalizing data with
  | nil => rfl
  | cons j js ih => rw [placeData]; split <;> simp [ih]

/-- The bits the walk of step 3 puts at data positions are the data in order, as far as there are positions. -/
theorem placeData_zip (js : List Nat) (data : BitSeq)
    (h : (js.filter (fun j : Nat => !isPowerOfTwo j)).length ≤ data.length) :
    ((js.zip (placeData js data)).filter (fun x => !isPowerOfTwo x.1)).map (·.2) =
      data.take (js.filter (fun j : Nat => !isPowerOfTwo j)).length := by
  induction js generalizing data with
  | nil => simp
  | cons j js ih =>
    rw [placeData]
    by_cases hp : isPowerOfTwo (j : Int) = true
    · simp [hp] at h ⊢
      exact ih _ h
    · simp only [Bool.not_eq_true] at hp
      simp [hp] at h ⊢
      cases data with
      | nil => simp at h
      | cons d data =>
        simp at h ⊢
        exact ih _ h

@[simp] theorem storeParities_nil (c : BitSeq) : storeParities c [] = c := rfl

theorem storeParities_cons (c : BitSeq) (i : Nat) (checks : List Nat) :
    storeParities c (i :: checks) = storeParities (setAt c (parityPos i) (encoderParity c i)) checks := rfl

@[simp] theorem length_storeParities (c : BitSeq) (checks : List Nat) :
    (storeParities c checks).length = c.length := by
  induction checks generalizing c with
  | nil => rfl
  | cons i checks ih => rw [storeParities_cons, ih, length_setAt]

/-- A position that is no parity position of the checks keeps its bit. -/
theorem bitAt_storeParities_of_ne {c : BitSeq} {checks : List Nat} {j : Nat}
    (h : ∀ i ∈ checks, j ≠ parityPos i) : bitAt (storeParities c checks) j = bitAt c j := by
  induction checks generalizing c with
  | nil => rfl
  | cons i checks ih =>
    rw [storeParities_cons, ih fun k hk => h k (by simp [hk]), bitAt_setAt_ne _ (h i (by simp))]

/-- A parity position lies in the covering set of its own check alone, so storing one parity bit leaves the parity
the Encoder computes for any check as it was. -/
theorem encoderParity_setAt (c : BitSeq) (k i : Nat) (v : Bit) :
    encoderParity (setAt c (parityPos k) v) i = encoderParity c i := by
  simp only [encoderParity, length_setAt]
  refine parity_congr fun j hj => bitAt_setAt_ne _ ?_
  simp only [List.mem_filter, mem_coveredPositions, bne_iff_ne, ne_eq, parityPos] at hj
  rintro rfl
  have hk : k = i := by simpa [parityPos, Nat.testBit_two_pow] using hj.1.2
  exact hj.2 (by rw [hk, parityPos])

theorem encoderParity_storeParities (c : BitSeq) (checks : List Nat) (i : Nat) :
    encoderParity (storeParities c checks) i = encoderParity c i := by
  induction checks generalizing c with
  | nil => rfl
  | cons k checks ih => rw [storeParities_cons, ih, encoderParity_setAt]

/-- Step 4 stores at each of its parity positions the parity of the placed codeword. -/
theorem bitAt_storeParities (c : BitSeq) {checks : List Nat} {i : Nat} (hi : i ∈ checks)
    (hl : parityPos i ≤ c.length) : bitAt (storeParities c checks) (parityPos i) = encoderParity c i := by
  induction checks generalizing c with
  | nil => simp at hi
  | cons k checks ih =>
    rw [storeParities_cons]
    by_cases h : i ∈ checks
    · rw [ih _ h (by simpa), encoderParity_setAt]
    · obtain rfl : i = k := by simpa [h] using hi
      rw [bitAt_storeParities_of_ne, bitAt_setAt_self _ (show 1 ≤ parityPos i from Nat.one_le_two_pow) hl]
      intro q hq he
      exact h (Nat.pow_right_injective (le_refl 2) he ▸ hq)

/-- Checks `0 .. r - 1` give a syndrome below `2^r` whose bit `i` is the parity of check `i`. -/
theorem syndromeOver_range (code : BitSeq) (r : Nat) :
    syndromeOver code (List.range r) < 2 ^ r ∧
      ∀ i, (syndromeOver code (List.range r)).testBit i = (decide (i < r) && decoderParity code i) := by
  induction r with
  | zero => simp [syndromeOver]
  | succ r ih =>
    have e : syndromeOver code (List.range (r + 1)) =
        if decoderParity code r then syndromeOver code (List.range r) + 2 ^ r
        else syndromeOver code (List.range r) := by
      simp [syndromeOver, List.range_succ, parityPos]
    rw [e]
    by_cases hd : decoderParity code r = true
    · rw [if_pos hd]
      refine ⟨by rw [pow_succ]; omega, fun i => ?_⟩
      rw [Nat.add_comm]
      rcases Nat.lt_trichotomy i r with h | rfl | h
      · rw [Nat.testBit_two_pow_add_gt h, ih.2]
        simp [h, Nat.lt_succ_of_lt h]
      · rw [Nat.testBit_two_pow_add_eq, ih.2]
        simp [hd]
      · have hp : 2 ^ (r + 1) ≤ 2 ^ i := Nat.pow_le_pow_right (by omega) h
        have hi : 2 ^ r + syndromeOver code (List.range r) < 2 ^ i := by
          rw [pow_succ] at hp; omega
        rw [Nat.testBit_lt_two_pow hi]
        simp [show ¬ i < r + 1 by omega]
    · rw [if_neg hd]
      refine ⟨by rw [pow_succ]; omega, fun i => ?_⟩
      rw [ih.2]
      by_cases h : i = r
      · subst h; simp [hd]
      · simp [show i < r ↔ i < r + 1 by omega]

@[simp] theorem length_encode (data : BitSeq) : (encode data).length = data.length + rEnc data.length := by
  simp [encode]

/-- The one case analysis on a decoding: which result goes with which syndrome (R53, R55). -/
theorem decodeAndCorrect_cases (code : BitSeq) :
    (syndrome code = 0 ∧ decodeAndCorrect code = .noError) ∨
    (0 < syndrome code ∧ syndrome code ≤ code.length ∧
      decodeAndCorrect code = .corrected (syndrome code) (flip code (syndrome code))) ∨
    (code.length < syndrome code ∧ decodeAndCorrect code = .uncorrectable (syndrome code)) := by
  by_cases h₀ : syndrome code = 0
  · exact .inl ⟨h₀, by simp [decodeAndCorrect, classify, h₀]⟩
  by_cases h₁ : syndrome code ≤ code.length
  · exact .inr (.inl ⟨by omega, h₁, by simp [decodeAndCorrect, classify, h₀, h₁]⟩)
  · exact .inr (.inr ⟨by omega, by simp [decodeAndCorrect, classify, h₀, h₁]⟩)

end Sys2Proof.Hamming
end

