-- ==== Sys2Proof/Laws/State.lean ====
section
/-!
SUPPORT. One lemma per field per update of the state, the response on the output port, and the two operations
that answer.
-/

namespace Sys2Proof.Machine

@[simp] theorem State.present_inst (s : State) (q : Request) : (s.present q).inst = s.inst := rfl
@[simp] theorem State.present_req (s : State) (q : Request) : (s.present q).req = q := rfl
@[simp] theorem State.present_rsp (s : State) (q : Request) : (s.present q).rsp = { s with req := q }.output := rfl

@[simp] theorem State.powerUp_inst (p : Params) (q : Request) : (State.powerUp p q).inst = p := rfl
@[simp] theorem State.powerUp_req (p : Params) (q : Request) : (State.powerUp p q).req = q := rfl

@[simp] theorem State.withFetchWord_inst (s : State) (nbits w : Nat) :
    (s.withFetchWord nbits w).inst = s.inst := rfl
@[simp] theorem State.withFetchWord_req (s : State) (nbits w : Nat) :
    (s.withFetchWord nbits w).req = Request.ofWord s.inst (w % 2 ^ nbits) := rfl
@[simp] theorem State.withFetchWord_rsp (s : State) (nbits w : Nat) :
    (s.withFetchWord nbits w).rsp =
      { s with req := Request.ofWord s.inst (w % 2 ^ nbits) }.output := rfl

/-- What the output port shows is what a step answers. -/
theorem State.output_of_step {s t : State} (h : step s = .next t) : s.output = t.rsp := by
  simp [State.output, show exec (decodeRequest s.req) s = .next t from h, responseOf]

/-- A field that holds the value shows the value. -/
@[simp] theorem zext_of_lt {width v : Nat} (h : v < 2 ^ width) : zext width v = v := Nat.mod_eq_of_lt h

theorem zext_lt (width v : Nat) : zext width v < 2 ^ width := Nat.mod_lt _ (by positivity)

@[simp] theorem zext_zero (width : Nat) : zext width 0 = 0 := Nat.zero_mod _

/-- All that answering does. -/
theorem State.respond_eq (s : State) (status : Status) (y dout : Nat) :
    s.respond status y dout =
      .next { s with rsp := ⟨status, zext s.inst.XW y, zext s.inst.N_MAX dout⟩ } := rfl

/-- Answering with values that fit the output port shows these values. -/
theorem State.respond_of_fits (s : State) (status : Status) {y dout : Nat}
    (hy : y < 2 ^ s.inst.XW) (hd : dout < 2 ^ s.inst.N_MAX) :
    s.respond status y dout = .next { s with rsp := ⟨status, y, dout⟩ } := by
  rw [State.respond_eq, zext_of_lt hy, zext_of_lt hd]

/-- What the one answer to an unserved request is (R64). -/
theorem State.invalid_eq (s : State) : s.invalid = .next { s with rsp := ⟨.invalid, 0, 0⟩ } := by
  simp [State.invalid, State.respond_eq]

end Sys2Proof.Machine
end

