-- ==== Sys2Proof/Laws/Meanings.lean ====
section
/-!
SUPPORT. What `exec` calls for each instruction, what `step` runs for each operation code, and one lemma per
meaning with a capacity check that says which answers it can give; and which request a written line becomes.
-/

namespace Sys2Proof.Machine

@[simp] theorem exec_pcount (m : Nat) (s : State) : exec (.pcount m) s = execPcount m s := rfl
@[simp] theorem exec_ispow2 (x : Nat) (s : State) : exec (.ispow2 x) s = execIspow2 x s := rfl
@[simp] theorem exec_encode (m din : Nat) (s : State) : exec (.encode m din) s = execEncode m din s := rfl
@[simp] theorem exec_decode (n din : Nat) (s : State) : exec (.decode n din) s = execDecode n din s := rfl
@[simp] theorem exec_cover (i n : Nat) (s : State) : exec (.cover i n) s = execCover i n s := rfl
@[simp] theorem exec_reserved5 (s : State) : exec .reserved5 s = s.invalid := rfl
@[simp] theorem exec_reserved6 (s : State) : exec .reserved6 s = s.invalid := rfl
@[simp] theorem exec_reserved7 (s : State) : exec .reserved7 s = s.invalid := rfl

theorem step_eq (s : State) : step s = exec (decodeRequest s.req) s := rfl

/-- What `ENCODE` can answer (R48). -/
theorem execEncode_cases (m din : Nat) (s : State) :
    (s.inst.N_MAX < m + Hamming.rEnc m ∧ execEncode m din s = s.invalid) ∨
    (m + Hamming.rEnc m ≤ s.inst.N_MAX ∧ execEncode m din s =
      s.respond .ok (m + Hamming.rEnc m) (Hamming.vec (Hamming.encode (Hamming.seq din m)))) := by
  by_cases h : s.inst.N_MAX < m + Hamming.rEnc m
  · exact .inl ⟨h, by simp [execEncode, h]⟩
  · exact .inr ⟨by omega, by simp [execEncode, h]⟩

/-- What `DECODE` can answer (R56). -/
theorem execDecode_cases (n din : Nat) (s : State) :
    (s.inst.N_MAX < n ∧ execDecode n din s = s.invalid) ∨
    (n ≤ s.inst.N_MAX ∧ Hamming.syndrome (Hamming.seq din n) = 0 ∧ execDecode n din s = s.respond .ok 0 0) ∨
    (n ≤ s.inst.N_MAX ∧ 0 < Hamming.syndrome (Hamming.seq din n) ∧ Hamming.syndrome (Hamming.seq din n) ≤ n ∧
      execDecode n din s = s.respond .corrected (Hamming.syndrome (Hamming.seq din n))
        (Hamming.vec (Hamming.flip (Hamming.seq din n) (Hamming.syndrome (Hamming.seq din n))))) ∨
    (n ≤ s.inst.N_MAX ∧ n < Hamming.syndrome (Hamming.seq din n) ∧
      execDecode n din s = s.respond .uncorrectable (Hamming.syndrome (Hamming.seq din n)) 0) := by
  by_cases h : s.inst.N_MAX < n
  · exact .inl ⟨h, by simp [execDecode, h]⟩
  · have hn : n ≤ s.inst.N_MAX := by omega
    rcases Hamming.decodeAndCorrect_cases (Hamming.seq din n) with ⟨h₀, hd⟩ | ⟨h₀, h₁, hd⟩ | ⟨h₁, hd⟩
    · exact .inr (.inl ⟨hn, h₀, by simp [execDecode, h, hd]⟩)
    · exact .inr (.inr (.inl ⟨hn, h₀, by simpa using h₁, by simp [execDecode, h, hd]⟩))
    · exact .inr (.inr (.inr ⟨hn, by simpa using h₁, by simp [execDecode, h, hd]⟩))

/-- What `COVER` can answer (R61). -/
theorem execCover_cases (i n : Nat) (s : State) :
    (s.inst.N_MAX < n ∧ execCover i n s = s.invalid) ∨
    (n ≤ s.inst.N_MAX ∧
      execCover i n s = s.respond .ok 0 (Hamming.maskOf (Hamming.coveredPositions i n))) := by
  by_cases h : s.inst.N_MAX < n
  · exact .inl ⟨h, by simp [execCover, h]⟩
  · exact .inr ⟨by omega, by simp [execCover, h]⟩

/-- A line whose operands fit their fields is the request of its operation (R37). -/
theorem requestOfLine_of_fits {p : Params} {i : Instr} (h : (encodeRequest i).Fits p) :
    requestOfLine p i = some (encodeRequest i) := by
  rw [requestOfLine, if_pos ⟨h.1, h.2.1⟩, Nat.mod_eq_of_lt h.2.2]

/-- A line with an integer operand that no field can hold becomes no request (log entry 18). -/
theorem requestOfLine_of_not_fits {p : Params} {i : Instr}
    (h : ¬ ((encodeRequest i).a < 2 ^ p.XW ∧ (encodeRequest i).b < 2 ^ p.XW)) :
    requestOfLine p i = none := if_neg h

end Sys2Proof.Machine
end

