-- ==== Sys2Proof/Laws/PerInstr.lean ====
section
/-!
SUPPORT. The per-instruction family `OpcodeField`: the three low bits of an instruction's word are its operation
code (R30, R32).
-/

namespace Sys2Proof.Laws.OpcodeField

/-- `op` is `REQ[2:0]`. -/
def Statement (i : Instr) : Prop :=
  ∀ p : Params, Sys2Proof.encode p i % 2 ^ 3 = i.opcode.toNat

/-- The low bits of a request word are its `op` field, and the request of an instruction has its code there. -/
theorem of_op_field (i : Instr) (h : (encodeRequest i).op = i.opcode) : Statement i := by
  intro p
  rw [Sys2Proof.encode, Request.toWord, Nat.add_mul_mod_self_left, Nat.mod_eq_of_lt (BitVec.isLt _), h]

theorem pcount (m : Nat) : Statement (.pcount m) := of_op_field _ rfl
theorem ispow2 (x : Nat) : Statement (.ispow2 x) := of_op_field _ rfl
theorem encode (m din : Nat) : Statement (.encode m din) := of_op_field _ rfl
theorem decode (n din : Nat) : Statement (.decode n din) := of_op_field _ rfl
theorem cover (i n : Nat) : Statement (.cover i n) := of_op_field _ rfl
theorem reserved5 : Statement .reserved5 := of_op_field _ rfl
theorem reserved6 : Statement .reserved6 := of_op_field _ rfl
theorem reserved7 : Statement .reserved7 := of_op_field _ rfl

end Sys2Proof.Laws.OpcodeField
end

