-- ==== Sys2Proof/Tests/Slice0.lean ====
section
/-!
SUPPORT. Tests of the model.  Every expected value is the spec's own: spec/95_test_vectors.md, the worked
examples of the rules, or a word written out from R30's layout.  The last part shows, for each statement with
hypotheses, values that meet them.
-/

namespace Sys2Proof.Tests

open Sys2Proof.Machine Sys2Proof.Hamming

/-- REF31 with its reset ports. -/
abbrev s0 : State := State.reset

/-- The response word of REF31 to a request word, on reset ports. -/
def rspWord (w : Nat) : Option Nat :=
  (responseOf (step (s0.withFetchWord 50 w))).map (fun r => r.toWord Params.ref31)

/-! ### Well-formedness: each check refuses an operand one too large for its field -/

theorem test_wf_pcount : (Instr.pcount 256).wellFormed Params.ref31 = false := by decide
theorem test_wf_ispow2 : (Instr.ispow2 256).wellFormed Params.ref31 = false := by decide
theorem test_wf_encode_length : (Instr.encode 256 0).wellFormed Params.ref31 = false := by decide
theorem test_wf_encode_din : (Instr.encode 4 (2 ^ 31)).wellFormed Params.ref31 = false := by decide
theorem test_wf_decode_length : (Instr.decode 256 0).wellFormed Params.ref31 = false := by decide
theorem test_wf_decode_din : (Instr.decode 7 (2 ^ 31)).wellFormed Params.ref31 = false := by decide
theorem test_wf_cover_index : (Instr.cover 256 7).wellFormed Params.ref31 = false := by decide
theorem test_wf_cover_length : (Instr.cover 1 256).wellFormed Params.ref31 = false := by decide
theorem test_wf_largest : (Instr.encode 255 (2 ^ 31 - 1)).wellFormed Params.ref31 = true := by decide
theorem test_valid_needs_capacity : ¬ Params.Valid ⟨0, 8⟩ := by decide
theorem test_valid_needs_two_bits : ¬ Params.Valid ⟨1, 1⟩ := by decide
theorem test_valid_needs_length_to_fit : ¬ Params.Valid ⟨256, 8⟩ := by decide
theorem test_request_fits_a : ¬ Request.Fits Params.ref31 ⟨0#3, 256, 0, 0⟩ := by decide
theorem test_request_fits_b : ¬ Request.Fits Params.ref31 ⟨0#3, 0, 256, 0⟩ := by decide
theorem test_request_fits_din : ¬ Request.Fits Params.ref31 ⟨0#3, 0, 0, 2 ^ 31⟩ := by decide
theorem test_response_fits_y : ¬ Response.Fits Params.ref31 ⟨.ok, 256, 0⟩ := by decide
theorem test_response_fits_dout : ¬ Response.Fits Params.ref31 ⟨.ok, 0, 2 ^ 31⟩ := by decide

/-! ### Decoding: words written out from R30, fields `din b a op` with 31, 8, 8 and 3 bits -/

theorem test_decode_pcount :
    decodeTableWord 50 0b0000000000000000000000000000000_00000000_00000100_000 = some (.pcount 4) := by decide
theorem test_decode_ispow2 :
    decodeTableWord 50 0b0000000000000000000000000000000_00000000_10000000_001 = some (.ispow2 128) := by decide
theorem test_decode_encode :
    decodeTableWord 50 0b0000000000000000000000000001101_00000000_00000100_010 = some (.encode 4 0xd) := by decide
theorem test_decode_decode :
    decodeTableWord 50 0b0000000000000000000000001110110_00000000_00000111_011 = some (.decode 7 0x76) := by decide
theorem test_decode_cover :
    decodeTableWord 50 0b0000000000000000000000000000000_00000001_00000111_100 = some (.cover 1 7) := by decide
theorem test_decode_reserved5 :
    decodeTableWord 50 0b0000000000000000000000000000000_00000000_00000000_101 = some .reserved5 := by decide
theorem test_decode_reserved6 :
    decodeTableWord 50 0b0000000000000000000000000001101_00000000_00000100_110 = some .reserved6 := by decide
theorem test_decode_reserved7 :
    decodeTableWord 50 0b1111111111111111111111111111111_11111111_11111111_111 = some .reserved7 := by decide
theorem test_decode_top_din_bit :
    decodeTableWord 50 0b1000000000000000000000000000000_00000000_00011111_011 = some (.decode 31 (2 ^ 30)) := by
  decide
theorem test_decode_wide_refused : decode Params.ref31 (2 ^ 50) = .error .widerThanRequest := by rfl
/-- 30_encoding.md, example: `ENCODE 1011` is `0x680022`. -/
theorem test_encode_word : encode Params.ref31 (.encode 4 0xd) = 0x680022 := by decide
/-- 95_test_vectors.md 2.9: `COVER 200, 31` is `0x640fc`. -/
theorem test_cover_word : encode Params.ref31 (.cover 200 31) = 0x640fc := by decide
/-- 30_encoding.md, example: the response to it is `0x1981C`. -/
theorem test_response_word : Response.toWord Params.ref31 ⟨.ok, 7, 0x66⟩ = 0x1981c := by decide
theorem test_response_of_word : Response.ofWord Params.ref31 0x1981d = ⟨.corrected, 7, 0x66⟩ := by decide

/-! ### One step per operation (95_test_vectors.md) -/

/-- 2.1: the largest operand, above M_MAX. -/
theorem test_pcount_largest : rspWord 0x7f8 = some 0x24 := by decide
/-- 2.10: `PCOUNT 4` with `b` and `din` set. -/
theorem test_pcount_ignored : rspWord 0x91a04820 = some 0xc := by decide
/-- 2.2: `ISPOW2 128` and `ISPOW2 0`. -/
theorem test_ispow2_top : rspWord 0x401 = some 0x4 := by decide
theorem test_ispow2_zero : rspWord 0x1 = some 0x0 := by decide
/-- 1.3: scenario A, with every ignored bit of `din` set (2.10). -/
theorem test_encode_scenario : rspWord 0x3ffffffe80022 = some 0x1981c := by decide
/-- 2.10: one above M_MAX. -/
theorem test_encode_too_long : rspWord 0x3ffffff800da = some 0x3 := by decide
/-- 1.4: scenario B, with ignored bits set (2.10). -/
theorem test_decode_corrects : rspWord 0x3ffffffb2a83b = some 0x19815 := by decide
/-- 3.3: `DECODE 10110`. -/
theorem test_decode_uncorrectable : rspWord 0x68002b = some 0x1a := by decide
/-- 2.9: `COVER 3, 9`, positions 8 and 9. -/
theorem test_cover_mask : rspWord 0x184c = some 0x60000 := by decide
/-- 2.10: `COVER` with n = 32. -/
theorem test_cover_too_long : rspWord 0x104 = some 0x3 := by decide
/-- 2.10: the reserved codes. -/
theorem test_reserved5 : rspWord 0x5 = some 0x3 := by decide
theorem test_reserved6 : rspWord 0x680026 = some 0x3 := by decide
theorem test_reserved7 : rspWord 0x3ffffffffffff = some 0x3 := by decide

/-! ### The ports between steps -/

/-- R70, R72: the output port follows the input port with no step in between (scenario A, then 2.10). -/
theorem test_present_follows : (s0.present ⟨2#3, 4, 0, 0xd⟩).rsp = ⟨.ok, 7, 0x66⟩ := by decide
theorem test_present_replaces :
    ((s0.present ⟨2#3, 4, 0, 0xd⟩).present ⟨5#3, 0, 0, 0⟩).rsp = ⟨.invalid, 0, 0⟩ := by decide
/-- R70: power comes up with scenario B on the inputs. -/
theorem test_power_up : (State.powerUp Params.ref31 ⟨3#3, 7, 0, 0x76⟩).rsp = ⟨.corrected, 5, 0x66⟩ := by decide
/-- Log entry 18: no request can be built from `PCOUNT 300` or `ISPOW2 256` on REF31. -/
theorem test_line_pcount_too_large : lineResult s0 (.request (.pcount 300)) = none := by decide
theorem test_line_ispow2_too_large : lineResult s0 (.request (.ispow2 256)) = none := by decide
theorem test_line_cover_too_large : lineResult s0 (.request (.cover 256 7)) = none := by decide
/-- R64: a written word of 32 bits on REF31. -/
theorem test_line_decode_too_long :
    lineResult s0 (.request (decodeLine (List.replicate 32 true))) = some (.response ⟨.invalid, 0, 0⟩) := by decide

/-! ### Functions of the functional level -/

/-- 2.3. -/
theorem test_rDec : [0, 1, 3, 4, 8, 16, 32].map rDec = [0, 1, 2, 3, 4, 5, 6] := by decide
theorem test_mMax : [1, 2, 3, 8, 16, 25].map (fun n => mMax ⟨n, 8⟩) = [0, 0, 1, 4, 11, 20] := by decide
theorem test_dataPos : [1, 4, 11, 12, 26, 27].map dataPos = [3, 7, 15, 17, 31, 33] := by decide
/-- 2.4: `00001`. -/
theorem test_encode_five : Hamming.encode [false, false, false, false, true] =
    [true, false, false, false, false, false, false, true, true] := by decide
/-- 2.8: a triple flip that goes unseen. -/
theorem test_triple_flip : decodeAndCorrect [true, false, false, false, false, true, true] = .noError := by decide
/-- 2.2: negative operands. -/
theorem test_negative : [-1, -2, -4, -128].map isPowerOfTwo = [false, false, false, false] := by decide
/-- 3.1: the host's `EXTRACT` of scenario A's codeword. -/
theorem test_extract : lineResult s0 (.extract [false, true, true, false, false, true, true]) =
    some (.bits [true, false, true, true]) := by decide
/-- 3.2: the host's `FLIP 0110011, 5`, and a position outside the sequence. -/
theorem test_flip : lineResult s0 (.flip [false, true, true, false, false, true, true] 5) =
    some (.bits [false, true, true, false, true, true, true]) := by decide
theorem test_flip_outside : lineResult s0 (.flip [false] 2) = none := by decide
/-- 3.4: lines of program P4, as written. -/
theorem test_written_encode_empty : lineResult s0 (.request (encodeLine [])) = some (.response ⟨.ok, 1, 0⟩) := by
  decide
theorem test_written_decode : lineResult s0 (.request (decodeLine [true, true])) =
    some (.response ⟨.uncorrectable, 3, 0⟩) := by decide

/-! ### Values that meet the hypotheses of the statements -/

theorem witness_ParityCountIsLeastPositive : (1 ≤ 1 ∧ 0 + 1 + 1 ≤ 2 ^ 1) ∧ 2 ≤ 2 := by decide
theorem witness_PcountAnswersTheParityCount : s0.inst.Valid ∧ 0 < 2 ^ s0.inst.XW ∧ 255 < 2 ^ s0.inst.XW := by decide
theorem witness_PowerOfTwoTestIsExact : (-1 : Int) < 0 := by decide
theorem witness_Ispow2AnswersTheTest : s0.inst.Valid ∧ 0 < 2 ^ s0.inst.XW ∧ 255 < 2 ^ s0.inst.XW := by decide
theorem witness_CheckCountIsBitLength : 1 ≤ 1 ∧ 1 + 1 ≤ 2 ^ 1 := by decide
theorem witness_CodewordLengthsAndCapacity : 0 < 1 ∧ 31 = nOf 26 ∧ Params.ref31.Valid ∧ Params.Valid ⟨1, 2⟩ := by decide
theorem witness_DataBitsLieAtDataPositions : 1 ≤ 1 ∧ 1 ≤ ([true] : BitSeq).length ∧
    1 ≤ (extractData [true, true, true]).length := by decide
theorem witness_VectorBitsAboveTheLength :
    (∀ k, k < 4 → (0xd : Nat).testBit k = (0x7ffffffd : Nat).testBit k) ∧ s0.inst.Valid ∧
    (∃ t, exec (.encode 4 0xd) s0 = .next t) ∧ (∃ t, exec (.decode 7 0x76) s0 = .next t) ∧
    (∃ t, exec (.cover 1 7) s0 = .next t) :=
  ⟨by decide, by decide, ⟨_, rfl⟩, ⟨_, rfl⟩, ⟨_, rfl⟩⟩
theorem witness_LengthsWithinCapacityAreServed : s0.inst.Valid ∧ 31 ≤ s0.inst.N_MAX ∧ 0 ≤ s0.inst.N_MAX ∧ 26 ≤ mMax s0.inst ∧
    s0.inst.N_MAX < 32 ∧ mMax s0.inst < 27 := by decide
theorem witness_ChecksMayBeTakenInAnyOrder : List.Perm [2, 1, 0] (List.range (rEnc ([true, false] : BitSeq).length)) ∧
    List.Perm [1, 0] (List.range (rDec ([true, false] : BitSeq).length)) ∧ 1 ≠ 0 := by decide
theorem witness_RequestWordLayout : Request.Fits Params.ref31 ⟨7#3, 255, 255, 2 ^ 31 - 1⟩ ∧
    2 ^ 50 - 1 < 2 ^ (3 + 2 * Params.ref31.XW + Params.ref31.N_MAX) := by decide
theorem witness_ResponseWordLayout : Response.Fits Params.ref31 ⟨.invalid, 255, 2 ^ 31 - 1⟩ ∧
    2 ^ 41 - 1 < 2 ^ (2 + Params.ref31.XW + Params.ref31.N_MAX) := by decide
theorem witness_DecodeInvertsEncode : (Instr.cover 255 255).wellFormed Params.ref31 = true ∧
    (Instr.encode 255 (2 ^ 31 - 1)).wellFormed Params.ref31 = true := by decide
theorem witness_DecodedInstructionIsWellFormed : decode Params.ref31 (2 ^ 50 - 1) = .ok .reserved7 := by rfl
theorem witness_StepRunsTheDecodedInstruction : s0.req.Fits s0.inst ∧ decode s0.inst (s0.req.toWord s0.inst) = .ok (.pcount 0) ∧
    (Instr.decode 7 0x76).wellFormed s0.inst = true := ⟨by decide, rfl, by decide⟩
theorem witness_CodewordPositionByPosition : 1 ≤ 1 ∧ 1 ≤ ([true] : BitSeq).length ∧ 1 < rEnc ([true] : BitSeq).length ∧
    List.Perm [1, 0] (List.range (rEnc ([true] : BitSeq).length)) := by decide
theorem witness_EncodeAnswersTheCodeword : s0.inst.Valid ∧ 26 + rEnc 26 ≤ s0.inst.N_MAX ∧ s0.inst.N_MAX < 27 + rEnc 27 := by decide
theorem witness_EncodedWordHasSyndromeZero : 0 < rEnc ([] : BitSeq).length := by decide
theorem witness_EncodeIsLinearAndInjective : ([true] : BitSeq).length = ([false] : BitSeq).length ∧
    Hamming.encode [true] = Hamming.encode [true] := by decide
theorem witness_CodewordsDifferInThreePositions : ([true] : BitSeq).length = ([false] : BitSeq).length ∧
    ([true] : BitSeq) ≠ [false] := by decide
theorem witness_SyndromeIsXorOfSetPositions : List.Perm [1, 0] (List.range (rDec ([true, true] : BitSeq).length)) := by decide
theorem witness_SyndromeClassesPartition : classify (syndrome [true, true]) 2 = .uncorrectable := by decide
theorem witness_CorrectorFlipsTheNamedBit : (0 < syndrome [true] ∧ syndrome [true] ≤ 1) ∧ syndrome [] = 0 ∧
    2 < syndrome [true, true] := by decide
theorem witness_DecodeAnswersBySyndrome : s0.inst.Valid ∧ s0.inst.N_MAX < 32 ∧
    (31 ≤ s0.inst.N_MAX ∧ syndrome (seq 0x7fffffff 31) = 0) ∧
    (0 < syndrome (seq 1 1) ∧ syndrome (seq 1 1) ≤ 1) ∧ 2 < syndrome (seq 3 2) := by decide
theorem witness_EverySingleFlipIsCorrected : 1 ≤ 1 ∧ 1 ≤ (Hamming.encode []).length ∧ 3 ≤ (Hamming.encode [true]).length := by
  decide
theorem witness_SingleFlipIsCorrectedOnThePorts : s0.inst.Valid ∧ 4 + rEnc 4 ≤ s0.inst.N_MAX ∧
    ∃ t, step (s0.present ⟨2#3, 4, 0, 0xd⟩) = .next t ∧ 1 ≤ 5 ∧ 5 ≤ t.rsp.y :=
  ⟨by decide, by decide, _, rfl, by decide⟩
theorem witness_RoundTripOnThePorts : s0.inst.Valid ∧ 4 + rEnc 4 ≤ s0.inst.N_MAX ∧
    ∃ t, step (s0.present ⟨2#3, 4, 0, 0xd⟩) = .next t := ⟨by decide, by decide, _, rfl⟩
theorem witness_DoubleFlipsAreNeverSeenAsNoError : (2 ≤ (Hamming.encode [true, false]).length ∧
    4 ≤ (Hamming.encode [true, false]).length ∧ 2 ≠ 4 ∧ (Hamming.encode [true, false]).length < 2 ^^^ 4) ∧
    1 ≠ 2 ∧ 1 ^^^ 2 ≤ (Hamming.encode [true, false]).length := by decide
theorem witness_CoveringSetsAreExact : (1 ≤ 3 ∧ 3 ≤ 3 ∧ isPowerOfTwo 3 = false) ∧ 2 ^ 0 ≤ 1 := by decide
theorem witness_CoverAnswersTheMask : s0.inst.Valid ∧ s0.inst.N_MAX < 32 ∧ 31 ≤ s0.inst.N_MAX ∧ rDec 31 ≤ 5 ∧
    s0.inst.XW ≤ 8 := by decide
theorem witness_ReservedCodesAnswerInvalid : 5 ≤ (5#3).toNat ∧ 5 ≤ (6#3).toNat ∧ 5 ≤ (7#3).toNat := by decide
/-- `ENCODE 1011` with ignored bits clear and set; a reserved code needs no field to agree. -/
theorem witness_IgnoredBitsDoNotMatter : (∀ k, k < 4 → (0xd : Nat).testBit k = (0x7ffffffd : Nat).testBit k) ∧
    (2#3).toNat ≤ 4 ∧ ¬ (5#3).toNat ≤ 4 ∧ (5#3 : BitVec 3) ≠ 4#3 ∧ (5#3 : BitVec 3) ≠ 2#3 := by decide
theorem witness_StatusCodesAndProducers : responseOf (exec (.decode 7 0x76) s0) = some ⟨.corrected, 5, 0x66⟩ ∧
    responseOf (exec (.decode 2 3) s0) = some ⟨.uncorrectable, 3, 0⟩ ∧
    responseOf (exec (.decode 7 0x66) s0) = some ⟨.ok, 0, 0⟩ := by decide
theorem witness_InvalidHasExactlyFourCauses : s0.inst.Valid ∧ s0.req.op.toNat ≤ 1 ∧ s0.req.op.toNat ≤ 4 ∧ s0.req.a = 0 := by
  decide
theorem witness_ResultsFitTheirFields : Params.ref31.Valid ∧ 31 ≤ Params.ref31.N_MAX ∧
    (List.replicate 31 true).length ≤ Params.ref31.N_MAX ∧ 255 < 2 ^ Params.ref31.XW ∧
    (List.replicate 26 true).length ≤ mMax Params.ref31 := by decide
theorem witness_ResponseIsAFunctionOfTheRequest : s0.req = { s0 with rsp := ⟨.invalid, 0, 0⟩ : State }.req ∧
    s0.inst = { s0 with rsp := ⟨.invalid, 0, 0⟩ : State }.inst := by decide
theorem witness_OperationsLeaveTheirInput : ∃ t, exec (.pcount 4) s0 = .next t := ⟨_, rfl⟩
theorem witness_RepeatingARequestChangesNothing : ∃ t, step s0 = .next t := ⟨_, rfl⟩
theorem witness_RequestsDoNotInfluenceEachOther : s0.inst = (s0.present ⟨3#3, 1, 0, 1⟩).inst := by decide
theorem witness_StepKeepsTheStateSafe : s0.Safe ∧ ∃ t, step s0 = .next t :=
  ⟨⟨by decide, by decide, by decide, trivial⟩, _, rfl⟩
theorem witness_PresentKeepsTheStateSafe : s0.inst.Valid ∧
    Request.Fits s0.inst ⟨2#3, 255, 255, 2 ^ 31 - 1⟩ ∧ Params.Valid ⟨1, 2⟩ ∧ Request.Fits ⟨1, 2⟩ ⟨3#3, 3, 3, 1⟩ := by
  decide
theorem witness_ResponseFollowsTheRequestAtAllTimes : ∃ t, step s0 = .next t := ⟨_, rfl⟩
theorem witness_ChangedRequestLeavesNothingBehind :
    s0.inst = { s0 with rsp := ⟨.invalid, 0, 0⟩ : State }.inst := by decide
/-- 3.2: the host's branch on `CORRECTED`, and 3.3: on `UNCORRECTABLE`. -/
theorem test_receive_corrected : receive [false, true, true, false, true, true, true] ⟨.corrected, 5, 0x66⟩ =
    some [false, true, true, false, false, true, true] := by decide
theorem test_receive_uncorrectable : receive [true, false, true, true, false] ⟨.uncorrectable, 6, 0⟩ = none := by
  decide
theorem witness_PositionsAreParityOrData : 1 ≤ 1 ∧ 1 ≤ 1 := by decide
theorem witness_HostReceivesTheCodewordSent : s0.inst.Valid ∧ ([true] : BitSeq).length ≤ mMax s0.inst ∧
    1 ≤ 3 ∧ 3 ≤ nOf ([true] : BitSeq).length := by decide
theorem witness_WrittenLinesMeanTheirBits : s0.inst.Valid ∧ (List.replicate 26 true).length ≤ mMax s0.inst ∧ 1 ≤ 31 ∧
    31 ≤ nOf (List.replicate 26 true).length ∧
    mMax s0.inst < (List.replicate 27 true).length ∧ (List.replicate 27 true).length < 2 ^ s0.inst.XW ∧
    s0.inst.N_MAX < (List.replicate 32 true).length ∧ (List.replicate 32 true).length < 2 ^ s0.inst.XW := by decide

end Sys2Proof.Tests
end

/-! ### Counts, lengths and results against the widths of their fields -/

namespace Sys2Proof.Hamming

/-- What R39 says of `rEnc`: it is at least 1, it meets the budget, and no smaller positive count does. -/
theorem rEnc_spec (m : Nat) :
    1 ≤ rEnc m ∧ rEnc m ≤ m + 1 ∧ m + rEnc m + 1 ≤ 2 ^ rEnc m ∧
      ∀ r, 1 ≤ r → m + r + 1 ≤ 2 ^ r → rEnc m ≤ r := by
  have hbound : m + (m + 1) + 1 ≤ 2 ^ (m + 1) := by
    have := Nat.lt_two_pow_self (n := m)
    rw [pow_succ]
    omega
  obtain ⟨hone, hle, hmeets, hleast⟩ :=
    minimalCheckCount_spec (budget := fun r => m + r + 1) (rounds := m) (start := 1)
      ⟨m + 1, by omega, by omega, hbound⟩
  refine ⟨hone, by rw [rEnc]; omega, hmeets, fun r hr hbudget => ?_⟩
  by_contra hlt
  exact absurd (hleast r hr (not_le.mp hlt)) (by omega)

/-- What R43 says of `rDec`: it is the least count with `n + 1 <= 2^r`. -/
theorem rDec_spec (n : Nat) : n + 1 ≤ 2 ^ rDec n ∧ ∀ r, n + 1 ≤ 2 ^ r → rDec n ≤ r := by
  obtain ⟨-, -, hmeets, hleast⟩ :=
    minimalCheckCount_spec (budget := fun _ => n + 1) (rounds := n) (start := 0)
      ⟨n, by omega, by omega, Nat.lt_two_pow_self⟩
  refine ⟨hmeets, fun r hbudget => ?_⟩
  by_contra hlt
  exact absurd (hleast r r.zero_le (not_le.mp hlt)) (by omega)

theorem rDec_le_of_lt_two_pow {n w : Nat} (h : n < 2 ^ w) : rDec n ≤ w := (rDec_spec n).2 w h

theorem rEnc_mono {m m' : Nat} (h : m ≤ m') : rEnc m ≤ rEnc m' := by
  obtain ⟨hone, -, hmeets, -⟩ := rEnc_spec m'
  exact (rEnc_spec m).2.2.2 _ hone (by omega)

theorem nOf_mono {m m' : Nat} (h : m ≤ m') : nOf m ≤ nOf m' := Nat.add_le_add h (rEnc_mono h)

/-- The codeword of no data has the one bit of check 0 (R45). -/
@[simp] theorem nOf_zero : nOf 0 = 1 := rfl

theorem nOf_largestWithin_le {limit : Nat} (h : 1 ≤ limit) (bound : Nat) :
    nOf (largestWithin limit bound) ≤ limit := by
  induction bound with
  | zero => simpa [largestWithin] using h
  | succ bound ih =>
    rw [largestWithin]
    split
    · assumption
    · exact ih

/-- Data of at most `M_MAX` bits has a codeword the ports can carry (R6). -/
theorem nOf_le_of_le_mMax {p : Params} (hp : 1 ≤ p.N_MAX) {m : Nat} (h : m ≤ mMax p) : nOf m ≤ p.N_MAX :=
  (nOf_mono h).trans (nOf_largestWithin_le hp p.N_MAX)

/-- A data length that fits `w` bits needs at most `w + 1` parity bits (R40). -/
theorem rEnc_le_of_lt_two_pow {m w : Nat} (h : m < 2 ^ w) : rEnc m ≤ w + 1 := by
  have hw : w < 2 ^ w := Nat.lt_two_pow_self
  exact (rEnc_spec m).2.2.2 (w + 1) (by omega) (by rw [pow_succ]; omega)

theorem succ_lt_two_pow {w : Nat} (h : 2 ≤ w) : w + 1 < 2 ^ w := by
  induction w, h using Nat.le_induction with
  | base => decide
  | succ w _ ih => rw [pow_succ]; omega

theorem syndrome_lt_two_pow_rDec (code : BitSeq) : syndrome code < 2 ^ rDec code.length :=
  (syndromeOver_range code (rDec code.length)).1

/-- The syndrome fits every field that holds the length. -/
theorem syndrome_lt_two_pow {code : BitSeq} {w : Nat} (h : code.length < 2 ^ w) : syndrome code < 2 ^ w :=
  (syndrome_lt_two_pow_rDec code).trans_le
    (Nat.pow_le_pow_right (by omega) (rDec_le_of_lt_two_pow h))

/-- A syndrome above the length is at least 3: up to one position, every syndrome names a position or is 0. -/
theorem three_le_syndrome_of_length_lt {code : BitSeq} (h : code.length < syndrome code) :
    3 ≤ syndrome code := by
  by_contra hsmall
  have hlength : code.length = 0 ∨ code.length = 1 := by omega
  rcases hlength with hlength | hlength
  · have := syndrome_lt_two_pow (code := code) (w := 0) (by omega)
    omega
  · have := syndrome_lt_two_pow (code := code) (w := 1) (by omega)
    omega

theorem vec_lt_of_length_le {c : BitSeq} {w : Nat} (h : c.length ≤ w) : vec c < 2 ^ w :=
  (vec_lt c).trans_le (Nat.pow_le_pow_right (by omega) h)

/-- A mask of positions up to `w` has no bit at or above `w`. -/
theorem maskOf_lt {set : List Nat} {w : Nat} (h : ∀ j ∈ set, 1 ≤ j ∧ j ≤ w) : maskOf set < 2 ^ w := by
  refine Nat.lt_pow_two_of_testBit _ fun k hk => ?_
  rw [testBit_maskOf fun j hj => (h j hj).1, decide_eq_false_iff_not]
  intro hmem
  exact absurd (h _ hmem).2 (by omega)

theorem maskOf_coveredPositions_lt {i n w : Nat} (h : n ≤ w) : maskOf (coveredPositions i n) < 2 ^ w :=
  maskOf_lt fun _ hj => ⟨(mem_coveredPositions.mp hj).1.1, (mem_coveredPositions.mp hj).1.2.trans h⟩

/-- Settles O44: lengths lie below `2^XW` by R6, counts are least, syndromes have `rDec` bits, and a packed
sequence or mask has no bit above its length. -/
theorem resultsFitTheirFields : Obligations.ResultsFitTheirFields := by
  rintro p ⟨hports, hwidth, hcapacity⟩
  refine ⟨fun n hn => ⟨by omega, rDec_le_of_lt_two_pow (by omega)⟩,
    fun code hcode => syndrome_lt_two_pow (by omega),
    fun m hm => rEnc_le_of_lt_two_pow hm, succ_lt_two_pow hwidth,
    fun data hdata => vec_lt_of_length_le ?_,
    fun code hcode => vec_lt_of_length_le (by simpa using hcode),
    fun i n hn => maskOf_coveredPositions_lt hn⟩
  simpa [nOf] using nOf_le_of_le_mMax hports hdata

end Sys2Proof.Hamming

/-! ### The invariant of the machine -/

namespace Sys2Proof.Machine

/-- The outcome is a next state that differs from `s` in the response alone, and the response fits the output port
and has a form of R63 and R64. -/
def AnswersLegally (s : State) (outcome : Host.Outcome State Fault Refusal) : Prop :=
  ∃ r : Response, r.Fits s.inst ∧ legalResponse s.inst r ∧ outcome = .next { s with rsp := r }

/-- An `OK` response has no form to keep, and the fields show no more than they hold. -/
theorem respond_ok_answersLegally (s : State) (y dout : Nat) : AnswersLegally s (s.respond .ok y dout) :=
  ⟨⟨.ok, _, _⟩, ⟨zext_lt _ _, zext_lt _ _⟩, trivial, s.respond_eq _ _ _⟩

theorem invalid_answersLegally (s : State) : AnswersLegally s s.invalid :=
  ⟨⟨.invalid, 0, 0⟩, ⟨by simp, by simp⟩, ⟨rfl, rfl⟩, s.invalid_eq⟩

theorem execEncode_answersLegally (m din : Nat) (s : State) : AnswersLegally s (execEncode m din s) := by
  obtain ⟨-, h⟩ | ⟨-, h⟩ := execEncode_cases m din s <;> rw [h]
  · exact invalid_answersLegally s
  · exact respond_ok_answersLegally s _ _

theorem execCover_answersLegally (i n : Nat) (s : State) : AnswersLegally s (execCover i n s) := by
  obtain ⟨-, h⟩ | ⟨-, h⟩ := execCover_cases i n s <;> rw [h]
  · exact invalid_answersLegally s
  · exact respond_ok_answersLegally s _ _

/-- With valid parameters `DECODE` shows the whole syndrome, so what R53 says of it holds of the response field. -/
theorem execDecode_answersLegally {s : State} (hv : s.inst.Valid) (n din : Nat) :
    AnswersLegally s (execDecode n din s) := by
  have hsyndrome (hn : n ≤ s.inst.N_MAX) : Hamming.syndrome (Hamming.seq din n) < 2 ^ s.inst.XW :=
    Hamming.syndrome_lt_two_pow (by rw [Hamming.length_seq]; exact hn.trans_lt hv.2.2)
  obtain ⟨-, h⟩ | ⟨-, -, h⟩ | ⟨hn, hpos, hle, h⟩ | ⟨hn, hlt, h⟩ := execDecode_cases n din s <;> rw [h]
  · exact invalid_answersLegally s
  · exact respond_ok_answersLegally s _ _
  · have hdout : Hamming.vec (Hamming.flip (Hamming.seq din n) (Hamming.syndrome (Hamming.seq din n))) <
        2 ^ s.inst.N_MAX := Hamming.vec_lt_of_length_le (by simpa using hn)
    exact ⟨⟨.corrected, _, _⟩, ⟨hsyndrome hn, hdout⟩, ⟨hpos, hle.trans hn⟩,
      s.respond_of_fits _ (hsyndrome hn) hdout⟩
  · have hthree := Hamming.three_le_syndrome_of_length_lt (code := Hamming.seq din n) (by simpa using hlt)
    have hzero : 0 < 2 ^ s.inst.N_MAX := by positivity
    exact ⟨⟨.uncorrectable, _, 0⟩, ⟨hsyndrome hn, hzero⟩, ⟨hthree, rfl⟩,
      s.respond_of_fits _ (hsyndrome hn) hzero⟩

/-- With valid parameters every instruction answers with a response that fits and has a form of R63 and R64. -/
theorem exec_answersLegally {s : State} (hv : s.inst.Valid) (i : Instr) : AnswersLegally s (exec i s) := by
  cases i with
  | pcount m => exact respond_ok_answersLegally s _ _
  | ispow2 x => exact respond_ok_answersLegally s _ _
  | encode m din => exact execEncode_answersLegally m din s
  | decode n din => exact execDecode_answersLegally hv n din
  | cover i n => exact execCover_answersLegally i n s
  | reserved5 => exact invalid_answersLegally s
  | reserved6 => exact invalid_answersLegally s
  | reserved7 => exact invalid_answersLegally s

/-- Settles O50: every instruction's response fits and has a legal form, and nothing else of the state changes. -/
theorem stepKeepsTheStateSafe : Obligations.StepKeepsTheStateSafe := by
  intro s t hs hstep
  obtain ⟨r, hfits, hlegal, hexec⟩ := exec_answersLegally hs.valid (decodeRequest s.req)
  rw [step_eq, hexec] at hstep
  cases hstep
  exact ⟨hs.valid, hs.request, hfits, hlegal⟩

/-- The response that comes with a presented request is the one its step answers, so it is legal too. -/
theorem present_safe {s : State} {q : Request} (hv : s.inst.Valid) (hq : q.Fits s.inst) : (s.present q).Safe := by
  obtain ⟨r, hfits, hlegal, hexec⟩ := exec_answersLegally (s := { s with req := q }) hv (decodeRequest q)
  have hrsp : (s.present q).rsp = r := State.output_of_step (s := { s with req := q }) hexec
  exact ⟨hv, hq, hrsp ▸ hfits, hrsp ▸ hlegal⟩

/-- Settles O51: power-up presents its request, so one lemma on presenting gives both clauses. -/
theorem presentKeepsTheStateSafe : Obligations.PresentKeepsTheStateSafe :=
  ⟨fun _ _ => present_safe, fun _ _ hp hq => present_safe hp hq⟩

end Sys2Proof.Machine

/-! ### Request words -/

namespace Sys2Proof

/-- The lowest field of a word. -/
theorem slice_lowest {x width : Nat} (y : Nat) (h : x < 2 ^ width) : slice (x + 2 ^ width * y) 0 width = x := by
  rw [slice, pow_zero, Nat.div_one, Nat.add_mul_mod_self_left, Nat.mod_eq_of_lt h]

/-- A field above the `k` lowest bits of a word is a field of the part above them. -/
theorem slice_above {x k : Nat} (y lo width : Nat) (h : x < 2 ^ k) :
    slice (x + 2 ^ k * y) (lo + k) width = slice y lo width := by
  rw [slice, slice, Nat.add_comm lo k, pow_add, ← Nat.div_div_eq_div_mul,
    Nat.add_mul_div_left _ _ (by positivity), Nat.div_eq_of_lt h, Nat.zero_add]

/-- The field directly above the `k` lowest bits. -/
theorem slice_above_lowest {x k : Nat} (y width : Nat) (h : x < 2 ^ k) :
    slice (x + 2 ^ k * y) k width = slice y 0 width := by
  simpa using slice_above y 0 width h

/-- A field `x` of `k` bits with `y` of `l` bits above it is a word of `k + l` bits. -/
theorem add_two_pow_mul_lt {x y k l : Nat} (hx : x < 2 ^ k) (hy : y < 2 ^ l) :
    x + 2 ^ k * y < 2 ^ (k + l) :=
  calc x + 2 ^ k * y < 2 ^ k * (y + 1) := by rw [Nat.mul_succ]; omega
    _ ≤ 2 ^ k * 2 ^ l := Nat.mul_le_mul_left _ hy
    _ = 2 ^ (k + l) := (pow_add ..).symm

/-- The word of a request whose fields fit, with no field cut (R30). -/
theorem Request.toWord_of_fits {p : Params} {q : Request} (h : q.Fits p) :
    q.toWord p = q.op.toNat + 2 ^ 3 * (q.a + 2 ^ p.XW * (q.b + 2 ^ p.XW * q.din)) := by
  obtain ⟨ha, hb, hd⟩ := h
  rw [Request.toWord, Nat.mod_eq_of_lt ha, Nat.mod_eq_of_lt hb, Nat.mod_eq_of_lt hd]

/-- Each field is cut to its width, so the word of any request has the width of R30. -/
theorem Request.toWord_lt (p : Params) (q : Request) : q.toWord p < 2 ^ p.reqBits := by
  have hfield (v width : Nat) : v % 2 ^ width < 2 ^ width := Nat.mod_lt _ (by positivity)
  have hbits : p.reqBits = 3 + (p.XW + (p.XW + p.N_MAX)) := by rw [Params.reqBits]; omega
  rw [hbits]
  exact add_two_pow_mul_lt q.op.isLt
    (add_two_pow_mul_lt (hfield ..) (add_two_pow_mul_lt (hfield ..) (hfield ..)))

/-- The word of a request whose fields fit holds each field in its place (R30). -/
theorem Request.ofWord_toWord {p : Params} {q : Request} (h : q.Fits p) :
    Request.ofWord p (q.toWord p) = q := by
  rw [Request.toWord_of_fits h]
  obtain ⟨ha, hb, hd⟩ := h
  have hop : q.op.toNat < 2 ^ 3 := q.op.isLt
  have hreadOp : BitVec.ofNat 3 q.op.toNat = q.op := by simp
  have hreadDin : slice q.din 0 p.N_MAX = q.din := slice_lowest 0 hd
  rw [Request.ofWord, slice_lowest _ hop, hreadOp, slice_above_lowest _ _ hop, slice_above _ _ _ hop,
    slice_above _ _ _ hop, slice_lowest _ ha, slice_above_lowest _ _ ha, slice_lowest _ hb, Nat.two_mul,
    slice_above _ _ _ ha, slice_above_lowest _ _ hb, hreadDin]

/-- The decoder reads from the word of a fitting request the instruction that the request asks for (R32). -/
theorem decode_toWord {p : Params} {q : Request} (h : q.Fits p) :
    decode p (q.toWord p) = .ok (decodeRequest q) := by
  rw [decode, if_pos (q.toWord_lt p), Request.ofWord_toWord h]

@[simp] theorem decodeRequest_encodeRequest (i : Instr) : decodeRequest (encodeRequest i) = i := by
  cases i <;> rfl

/-- The operands of an instruction fit its request; the fields it does not use are 0 and fit too (R37). -/
theorem encodeRequest_fits_iff {p : Params} {i : Instr} :
    (encodeRequest i).Fits p ↔ i.wellFormed p = true := by
  cases i <;> simp [encodeRequest, Request.Fits, Instr.wellFormed, and_comm]

end Sys2Proof

/-! ### What a step does: it runs the requested instruction, and drives the response alone -/

namespace Sys2Proof.Machine

/-- Putting the word of a well-formed instruction on the input port is putting its request there: no bit of the
word is at or above the width of the port. -/
theorem State.withFetchWord_encode {s : State} {i : Instr} (h : i.wellFormed s.inst = true) :
    s.withFetchWord s.inst.reqBits (Sys2Proof.encode s.inst i) = s.present (encodeRequest i) := by
  rw [State.withFetchWord, Sys2Proof.encode, Nat.mod_eq_of_lt (Request.toWord_lt ..),
    Request.ofWord_toWord (encodeRequest_fits_iff.mpr h)]

/-- Settles O20: the decoder reads a fitting request back from its word, and the request of an instruction asks for
that instruction. -/
theorem stepRunsTheDecodedInstruction : Obligations.StepRunsTheDecodedInstruction := by
  refine ⟨fun s i hfits hdecode => ?_, fun s i hi => ?_⟩
  · rw [decode_toWord hfits] at hdecode
    rw [step_eq, Except.ok.inj hdecode]
  · rw [State.withFetchWord_encode hi, step_eq, State.present_req, decodeRequest_encodeRequest]

/-- The meaning drives the response alone, with a response that the parameters of R6 fix: neither the request
fields nor the response that stood on the output port take part (R10, R15). -/
def AnswersByInstance (meaning : State → Host.Outcome State Fault Refusal) : Prop :=
  ∀ p : Params, ∃ r : Response, ∀ s : State, s.inst = p → meaning s = .next { s with rsp := r }

theorem respond_answersByInstance (status : Status) (y dout : Nat) :
    AnswersByInstance fun s => s.respond status y dout :=
  fun p => ⟨⟨status, zext p.XW y, zext p.N_MAX dout⟩, by rintro s rfl; exact s.respond_eq ..⟩

theorem invalid_answersByInstance : AnswersByInstance State.invalid :=
  respond_answersByInstance .invalid 0 0

/-- A capacity check reads the parameters alone, and an operation that fails it answers `INVALID` (R64, R66). -/
theorem answersByInstance_of_capacityCheck (n : Nat) {meaning : State → Host.Outcome State Fault Refusal}
    (h : AnswersByInstance meaning) :
    AnswersByInstance fun s => if s.inst.N_MAX < n then s.invalid else meaning s := by
  intro p
  by_cases hn : p.N_MAX < n
  · obtain ⟨r, hr⟩ := invalid_answersByInstance p
    exact ⟨r, fun s hs => (if_pos (hs ▸ hn)).trans (hr s hs)⟩
  · obtain ⟨r, hr⟩ := h p
    exact ⟨r, fun s hs => (if_neg (hs ▸ hn)).trans (hr s hs)⟩

theorem execDecode_answersByInstance (n din : Nat) : AnswersByInstance (execDecode n din) := by
  refine answersByInstance_of_capacityCheck n ?_
  cases Hamming.decodeAndCorrect (Hamming.seq din n) with
  | noError => exact respond_answersByInstance _ _ _
  | corrected p c => exact respond_answersByInstance _ _ _
  | uncorrectable syn => exact respond_answersByInstance _ _ _

/-- With the same parameters an instruction answers the same in every state, and changes nothing but the response. -/
theorem exec_answersByInstance (i : Instr) : AnswersByInstance (exec i) := by
  cases i with
  | pcount m => exact respond_answersByInstance _ _ _
  | ispow2 x => exact respond_answersByInstance _ _ _
  | encode m din => exact answersByInstance_of_capacityCheck _ (respond_answersByInstance _ _ _)
  | decode n din => exact execDecode_answersByInstance n din
  | cover i n => exact answersByInstance_of_capacityCheck n (respond_answersByInstance _ _ _)
  | reserved5 => exact invalid_answersByInstance
  | reserved6 => exact invalid_answersByInstance
  | reserved7 => exact invalid_answersByInstance

/-- Settles O46: equal requests ask for one instruction, whose response the parameters fix. -/
theorem responseIsAFunctionOfTheRequest : Obligations.ResponseIsAFunctionOfTheRequest := by
  intro s t hreq hinst
  obtain ⟨r, hr⟩ := exec_answersByInstance (decodeRequest s.req) s.inst
  have ht := hr t hinst.symm
  rw [hreq] at ht
  exact ⟨r, hr s rfl, ht⟩

/-- Settles O47: an instruction's next state is the state before with another response. -/
theorem operationsLeaveTheirInput : Obligations.OperationsLeaveTheirInput := by
  intro i s t hexec
  obtain ⟨r, hr⟩ := exec_answersByInstance i s.inst
  rw [hr s rfl] at hexec
  cases hexec
  exact ⟨rfl, rfl⟩

end Sys2Proof.Machine

/-! ### Parity positions and data positions -/

namespace Sys2Proof.Hamming

/-- The test of R41 on a position says that the position is some `2^k`. -/
theorem isPowerOfTwo_natCast_iff (j : Nat) : isPowerOfTwo (j : Int) = true ↔ ∃ k, j = 2 ^ k := by
  rw [isPowerOfTwo_natCast, Bool.and_eq_true, decide_eq_true_eq, beq_iff_eq, Nat.pos_iff_ne_zero]
  exact Nat.ne_zero_and_sub_one_eq_zero_iff_isPowerOfTwo

/-- A position strictly between two consecutive powers of two is none itself. -/
theorem isPowerOfTwo_eq_false_of_between {j r : Nat} (hlow : 2 ^ (r - 1) < j) (hhigh : j < 2 ^ r) :
    isPowerOfTwo (j : Int) = false := by
  rw [← Bool.not_eq_true, isPowerOfTwo_natCast_iff]
  rintro ⟨k, rfl⟩
  have hk₁ : r - 1 < k := (Nat.pow_lt_pow_iff_right one_lt_two).mp hlow
  have hk₂ : k < r := (Nat.pow_lt_pow_iff_right one_lt_two).mp hhigh
  omega

theorem mem_parityPositions_iff_two_pow {n j : Nat} : j ∈ parityPositions n ↔ ∃ i, j = 2 ^ i ∧ 2 ^ i ≤ n := by
  rw [mem_parityPositions, isPowerOfTwo_natCast_iff]
  constructor
  · rintro ⟨⟨-, hle⟩, i, rfl⟩
    exact ⟨i, rfl, hle⟩
  · rintro ⟨i, rfl, hle⟩
    exact ⟨⟨Nat.one_le_two_pow, hle⟩, i, rfl⟩

/-- `rDec(n)` counts the bits of `n`: it is at most `r` exactly when `n` fits `r` bits. -/
theorem rDec_le_iff {n r : Nat} : rDec n ≤ r ↔ n < 2 ^ r :=
  ⟨fun h => (rDec_spec n).1.trans (Nat.pow_le_pow_right two_pos h), rDec_le_of_lt_two_pow⟩

/-- The Decoder runs check `i` exactly when its parity position lies in the codeword (R43). -/
theorem lt_rDec_iff {n i : Nat} : i < rDec n ↔ 2 ^ i ≤ n := by
  rw [← not_le, rDec_le_iff, not_lt]

theorem rDec_eq_log2_succ {n : Nat} (h : n ≠ 0) : rDec n = Nat.log2 n + 1 :=
  eq_of_forall_ge_iff fun r => by rw [rDec_le_iff, Nat.succ_le_iff, Nat.log2_lt h]

theorem parityPositions_eq_map_parityPos (n : Nat) : parityPositions n = (List.range (rDec n)).map parityPos := by
  have hincreasing : ((List.range (rDec n)).map parityPos).Pairwise (· < ·) :=
    List.pairwise_map.mpr
      (List.pairwise_lt_range.imp fun h => (Nat.pow_lt_pow_iff_right one_lt_two).mpr h)
  have hsorted : (parityPositions n).Pairwise (· < ·) := List.Pairwise.filter _ List.pairwise_lt_range'
  refine List.Perm.eq_of_pairwise (fun a b _ _ hab hba => absurd hab hba.asymm) hsorted hincreasing ?_
  refine (List.perm_ext_iff_of_nodup hsorted.nodup hincreasing.nodup).mpr fun j => ?_
  simp only [mem_parityPositions_iff_two_pow, List.mem_map, List.mem_range, lt_rDec_iff, parityPos]
  exact exists_congr fun i => by rw [and_comm, eq_comm]

@[simp] theorem length_parityPositions (n : Nat) : (parityPositions n).length = rDec n := by
  simp [parityPositions_eq_map_parityPos]

theorem length_parityPositions_add_length_dataPositions (n : Nat) :
    (parityPositions n).length + (dataPositions n).length = n := by
  have h := List.length_eq_length_filter_add (l := positions n) fun j => isPowerOfTwo j
  rw [length_positions] at h
  exact h.symm

/-- The Decoder runs as many checks on an encoded length as the Encoder made parity bits (R44). -/
theorem rDec_nOf (m : Nat) : rDec (nOf m) = rEnc m := by
  obtain ⟨hone, -, hmeets, hleast⟩ := rEnc_spec m
  have hle : rDec (nOf m) ≤ rEnc m := rDec_le_iff.mpr hmeets
  have hpos : 0 < rDec (nOf m) := lt_rDec_iff.mpr (by rw [nOf]; omega)
  have hbudget : nOf m + 1 ≤ 2 ^ rDec (nOf m) := (rDec_spec (nOf m)).1
  exact hle.antisymm (hleast _ hpos (by rw [nOf] at hbudget hle ⊢; omega))

@[simp] theorem length_dataPositions_nOf (m : Nat) : (dataPositions (nOf m)).length = m := by
  have h := length_parityPositions_add_length_dataPositions (nOf m)
  rw [length_parityPositions, rDec_nOf, nOf] at h
  rw [nOf]
  omega

/-- Settles O8: the parity positions are those of the `rDec(n)` checks, the data positions are the rest, and
`rDec` is `rEnc` on an encoded length. -/
theorem dataPositionCount : Obligations.DataPositionCount := by
  refine ⟨fun n => ?_, fun n => ?_, fun m => ⟨?_, length_dataPositions_nOf m⟩⟩
  · have := length_parityPositions_add_length_dataPositions n
    omega
  · rw [length_parityPositions]
    split
    case isTrue h => subst h; rfl
    case isFalse h => exact rDec_eq_log2_succ h
  · rw [length_parityPositions, rDec_nOf]

/-! ### What the Encoder stores at the data positions -/

/-- Reading a sequence at all its positions pairs each position with its bit. -/
theorem zip_positions_eq_map_bitAt {c : BitSeq} {n : Nat} (h : c.length = n) :
    (positions n).zip c = (positions n).map fun j => (j, bitAt c j) := by
  subst h
  refine List.ext_getElem (by simp) fun k _ _ => ?_
  have hk : k < c.length := by simp_all
  simp [positions, Nat.add_comm 1 k, bitAt_succ, hk]

/-- The walk of step 3 leaves the data bits at the data positions, in their order (R47, R50). -/
theorem map_bitAt_placeData {n : Nat} {data : BitSeq} (h : (dataPositions n).length ≤ data.length) :
    (dataPositions n).map (bitAt (placeData (positions n) data)) = data.take (dataPositions n).length := by
  have hzip := placeData_zip (positions n) data h
  rw [zip_positions_eq_map_bitAt (by simp), List.filter_map, List.map_map] at hzip
  exact hzip

/-- Step 4 writes at parity positions alone, so it leaves the bit of a data position. -/
theorem bitAt_encode_of_not_isPowerOfTwo (data : BitSeq) {j : Nat} (h : isPowerOfTwo (j : Int) = false) :
    bitAt (encode data) j = bitAt (placeData (positions (nOf data.length)) data) j := by
  refine bitAt_storeParities_of_ne fun i _ hj => ?_
  have : isPowerOfTwo (j : Int) = true := (isPowerOfTwo_natCast_iff j).mpr ⟨i, hj⟩
  simp [h] at this

/-- Extracting from a codeword gives its data back (R51). -/
@[simp] theorem extractData_encode (data : BitSeq) : extractData (encode data) = data := by
  have hplaced := map_bitAt_placeData (n := nOf data.length) (data := data) (by simp)
  rw [length_dataPositions_nOf, List.take_length] at hplaced
  rw [extractData, length_encode]
  refine Eq.trans ?_ hplaced
  exact List.map_congr_left fun j hj => bitAt_encode_of_not_isPowerOfTwo _ (mem_dataPositions.mp hj).2

/-- Settles O57: the power-of-two test splits the positions, and what is read at the data positions of a codeword
is what `extractData` gives. -/
theorem positionsAreParityOrData : Obligations.PositionsAreParityOrData := by
  refine ⟨fun n j => ?_, fun n j ⟨hparity, hdata⟩ => ?_, fun n j => mem_parityPositions_iff_two_pow,
    fun n j hone hle => ?_, fun data => ?_⟩
  · rw [mem_parityPositions, mem_dataPositions, ← and_or_left]
    cases isPowerOfTwo (j : Int) <;> simp
  · have htrue := (mem_parityPositions.mp hparity).2
    rw [(mem_dataPositions.mp hdata).2] at htrue
    exact Bool.false_ne_true htrue
  · rw [mem_parityPositions, and_iff_right ⟨hone, hle⟩]
  · have h := extractData_encode data
    rwa [extractData, length_encode] at h

/-! ### The k-th data position -/

theorem positions_prefix {n n' : Nat} (h : n ≤ n') : positions n <+: positions n' := by
  obtain ⟨d, rfl⟩ := Nat.exists_eq_add_of_le h
  rw [positions, positions, ← List.range'_append_1]
  exact List.prefix_append ..

/-- A longer codeword has the data positions of a shorter one, with the same indices. -/
theorem getElem?_dataPositions_of_le {n n' k j : Nat} (h : n ≤ n') (hk : (dataPositions n)[k]? = some j) :
    (dataPositions n')[k]? = some j := by
  have hprefix : dataPositions n <+: dataPositions n' := (positions_prefix h).filter _
  obtain ⟨hlt, rfl⟩ := List.getElem?_eq_some_iff.mp hk
  exact List.prefix_iff_getElem?.mp hprefix k hlt

/-- The last position of a codeword with data is a data position (R45): it lies between two powers of two. -/
theorem isPowerOfTwo_nOf {m : Nat} (h : 1 ≤ m) : isPowerOfTwo (nOf m : Int) = false := by
  obtain ⟨hone, -, hmeets, hleast⟩ := rEnc_spec m
  refine isPowerOfTwo_eq_false_of_between (r := rEnc m) ?_ hmeets
  rw [nOf]
  by_contra hbudget
  rcases Nat.eq_or_lt_of_le hone with hr | hr
  · rw [← hr] at hbudget
    omega
  · have := hleast (rEnc m - 1) (by omega) (by omega)
    omega

theorem dataPositions_succ_of_not_isPowerOfTwo {n : Nat} (h : isPowerOfTwo ((n + 1 : Nat) : Int) = false) :
    dataPositions (n + 1) = dataPositions n ++ [n + 1] := by
  rw [dataPositions, positions_succ, List.filter_append, List.filter_cons_of_pos (by rw [h]; rfl)]
  rfl

/-- The last data position of the codeword of `k + 1` data bits is its length. -/
theorem getElem?_dataPositions_nOf (k : Nat) : (dataPositions (nOf (k + 1)))[k]? = some (nOf (k + 1)) := by
  have hlength := length_dataPositions_nOf (k + 1)
  have hlast := isPowerOfTwo_nOf (m := k + 1) (by omega)
  obtain ⟨n, hn⟩ : ∃ n, nOf (k + 1) = n + 1 := ⟨k + rEnc (k + 1), by rw [nOf]; omega⟩
  rw [hn] at hlength hlast ⊢
  rw [dataPositions_succ_of_not_isPowerOfTwo hlast] at hlength ⊢
  obtain rfl : (dataPositions n).length = k := by simpa using hlength
  simp

/-- In every codeword the data position with index `k` is `nOf(k + 1)`. -/
theorem eq_nOf_of_getElem?_dataPositions {n k j : Nat} (h : (dataPositions n)[k]? = some j) :
    j = nOf (k + 1) := by
  have hj := getElem?_dataPositions_of_le (le_max_left n (nOf (k + 1))) h
  have hnOf := getElem?_dataPositions_of_le (le_max_right n (nOf (k + 1))) (getElem?_dataPositions_nOf k)
  exact Option.some.inj (hj.symm.trans hnOf)

/-- The closed form of R22: `dataPos(k)` is the length of the codeword of `k` data bits. -/
theorem dataPos_eq_nOf {k : Nat} (h : 1 ≤ k) : dataPos k = nOf k := by
  obtain ⟨k, rfl⟩ := Nat.exists_eq_add_of_le' h
  have hle : nOf (k + 1) ≤ 2 * (k + 1) + 1 := by
    have := (rEnc_spec (k + 1)).2.1
    rw [nOf]
    omega
  simp [dataPos, getElem?_dataPositions_of_le hle (getElem?_dataPositions_nOf k)]

theorem nOf_lt_nOf {m m' : Nat} (h : m < m') : nOf m < nOf m' := Nat.add_lt_add_of_lt_of_le h (rEnc_mono h.le)

/-- Every positive integer that is no power of two is some `dataPos(k)`, and there are no others (R22). -/
theorem exists_dataPos_eq_iff (j : Nat) :
    (∃ k, 1 ≤ k ∧ dataPos k = j) ↔ 1 ≤ j ∧ isPowerOfTwo (j : Int) = false := by
  constructor
  · rintro ⟨k, hk, rfl⟩
    rw [dataPos_eq_nOf hk]
    exact ⟨by rw [nOf]; omega, isPowerOfTwo_nOf hk⟩
  · rintro ⟨hone, hdata⟩
    obtain ⟨k, hk⟩ := List.mem_iff_getElem?.mp (mem_dataPositions.mpr ⟨⟨hone, le_refl j⟩, hdata⟩)
    exact ⟨k + 1, by omega, by rw [dataPos_eq_nOf (by omega), eq_nOf_of_getElem?_dataPositions hk]⟩

/-- The k-th extracted bit is read from `dataPos(k)` (R51). -/
theorem bitAt_extractData (c : BitSeq) {k : Nat} (h₁ : 1 ≤ k) (h₂ : k ≤ (extractData c).length) :
    bitAt (extractData c) k = bitAt c (dataPos k) := by
  obtain ⟨k, rfl⟩ := Nat.exists_eq_add_of_le' h₁
  have hk : k < (dataPositions c.length).length := by simpa [extractData] using h₂
  have hj := eq_nOf_of_getElem?_dataPositions (List.getElem?_eq_getElem hk)
  simp [bitAt_succ, extractData, hk, hj, dataPos_eq_nOf h₁]

/-- Settles O9: the data positions in increasing order are the lengths `nOf(1), nOf(2), …`, and a codeword's data
bits are what `extractData` reads from it. -/
theorem dataBitsLieAtDataPositions : Obligations.DataBitsLieAtDataPositions := by
  refine ⟨fun k hk => ?_, exists_dataPos_eq_iff, by decide, fun k hk => ?_, fun data k h₁ h₂ => ?_,
    fun c k => bitAt_extractData c⟩
  · rw [dataPos_eq_nOf hk, dataPos_eq_nOf (by omega)]
    exact nOf_lt_nOf k.lt_succ_self
  · exact ⟨dataPos_eq_nOf hk, dataPos_eq_nOf hk⟩
  · rw [← bitAt_extractData (encode data) h₁ (by simpa using h₂), extractData_encode]

/-! ### Vector fields -/

/-- The positions of a sequence with one more bit at the front are 1 and the old positions moved up by one. -/
theorem positions_succ_eq_cons (n : Nat) : positions (n + 1) = 1 :: (positions n).map (1 + ·) := by
  rw [positions, List.range'_succ, positions, List.map_add_range']

/-- The field read as an unsigned number (R23). -/
theorem vec_eq_sum (s : BitSeq) :
    vec s = ((positions s.length).map fun p => (bitAt s p).toNat * 2 ^ (p - 1)).sum := by
  induction s with
  | nil => rfl
  | cons b s ih =>
    have hmoved : ∀ p ∈ positions s.length,
        (bitAt (b :: s) (1 + p)).toNat * 2 ^ (1 + p - 1) = 2 * ((bitAt s p).toNat * 2 ^ (p - 1)) := by
      intro p hp
      obtain ⟨k, rfl⟩ := Nat.exists_eq_add_of_le' (mem_positions.mp hp).1
      rw [Nat.add_comm 1, bitAt_cons_succ _ _ (by omega), Nat.add_sub_cancel, Nat.add_sub_cancel, pow_succ]
      ring
    rw [vec, ih, List.length_cons, positions_succ_eq_cons, List.map_cons, List.map_map, List.sum_cons,
      ← List.sum_map_mul_left, ← List.map_congr_left hmoved]
    simp [Function.comp_def]

/-- Unpacking a packed sequence gives it back. -/
@[simp] theorem seq_vec (s : BitSeq) : seq (vec s) s.length = s := by
  refine ext_bitAt (length_seq ..) fun j hone hle => ?_
  obtain ⟨k, rfl⟩ := Nat.exists_eq_add_of_le' hone
  have hk : k < s.length := by simpa using hle
  simp [bitAt_seq, testBit_vec, hk]

/-- Packing an unpacked field gives its bits below the length. -/
@[simp] theorem vec_seq (f L : Nat) : vec (seq f L) = f % 2 ^ L :=
  Nat.eq_of_testBit_eq fun k => by rw [testBit_vec, bitAt_seq, Nat.testBit_mod_two_pow]

/-- Settles O10: bit `k` of a packed sequence is its position `k + 1`, which fixes packing and unpacking. -/
theorem vectorFieldBitOrder : Obligations.VectorFieldBitOrder :=
  ⟨testBit_vec, vec_eq_sum, seq_vec, vec_seq, by decide⟩

/-! ### The order of the checks -/

/-- What step 4 stores depends on which checks are taken and not on their order: each parity bit is the parity of
the placed codeword. -/
theorem storeParities_perm (c : BitSeq) {checks checks' : List Nat} (h : List.Perm checks checks') :
    storeParities c checks = storeParities c checks' := by
  refine ext_bitAt (by simp) fun j _ hj => ?_
  rw [length_storeParities] at hj
  by_cases hcheck : ∃ i ∈ checks, j = parityPos i
  · obtain ⟨i, hi, rfl⟩ := hcheck
    rw [bitAt_storeParities c hi hj, bitAt_storeParities c (h.mem_iff.mp hi) hj]
  · have hne : ∀ i ∈ checks, j ≠ parityPos i := fun i hi he => hcheck ⟨i, hi, he⟩
    rw [bitAt_storeParities_of_ne hne, bitAt_storeParities_of_ne fun i hi => hne i (h.mem_iff.mpr hi)]

/-- Each failed check adds its own parity position, and sums do not depend on the order. -/
theorem syndromeOver_perm (code : BitSeq) {checks checks' : List Nat} (h : List.Perm checks checks') :
    syndromeOver code checks = syndromeOver code checks' := by
  refine h.foldl_eq' (fun i _ k _ sum => ?_) 0
  split <;> split <;> omega

theorem parityPos_notMem_coveredPositions {i k : Nat} (n : Nat) (h : k ≠ i) :
    parityPos k ∉ coveredPositions i n := by
  rw [mem_coveredPositions, parityPos, Nat.testBit_two_pow]
  simp [h]

/-- Settles O13: step 4 and the syndrome depend on the checks up to order. -/
theorem checksMayBeTakenInAnyOrder : Obligations.ChecksMayBeTakenInAnyOrder :=
  ⟨fun _ _ h => storeParities_perm _ h, fun code _ h => syndromeOver_perm code h,
    fun _ _ n h => parityPos_notMem_coveredPositions n h⟩

/-! ### The largest data length within the capacity -/

theorem le_largestWithin {limit m bound : Nat} (hm : m ≤ bound) (h : nOf m ≤ limit) :
    m ≤ largestWithin limit bound := by
  induction bound with
  | zero => exact hm
  | succ bound ih =>
    rw [largestWithin]
    split
    case isTrue => exact hm
    case isFalse hlarger =>
      refine ih (Nat.lt_succ_iff.mp (hm.lt_of_ne ?_))
      rintro rfl
      exact hlarger h

/-- `M_MAX` is the largest data length whose codeword the ports can carry (R6). -/
theorem le_mMax_iff {p : Params} (hp : 1 ≤ p.N_MAX) {m : Nat} : m ≤ mMax p ↔ nOf m ≤ p.N_MAX :=
  ⟨nOf_le_of_le_mMax hp, fun h => le_largestWithin (le_trans (Nat.le_add_right ..) h) h⟩

end Sys2Proof.Hamming

/-! ### Lengths at the ports -/

namespace Sys2Proof.Machine

theorem zext_le (width v : Nat) : zext width v ≤ v := Nat.mod_le ..

/-- Answering with a vector of `n` bits shows no bit at or above `n`. -/
theorem dout_lt_of_respond {s t : State} {status : Status} {y dout n : Nat} (hd : dout < 2 ^ n)
    (h : s.respond status y dout = .next t) : t.rsp.dout < 2 ^ n := by
  rw [State.respond_eq] at h
  cases h
  exact (zext_le ..).trans_lt hd

/-- An `INVALID` response has no vector. -/
theorem dout_lt_of_invalid {s t : State} {n : Nat} (h : s.invalid = .next t) : t.rsp.dout < 2 ^ n :=
  dout_lt_of_respond (by positivity) h

/-- `ENCODE` looks at the bits of `din` below the length alone (R24). -/
theorem execEncode_congr {m din din' : Nat} (h : ∀ k, k < m → din.testBit k = din'.testBit k) :
    execEncode m din = execEncode m din' := by
  funext s
  rw [execEncode, execEncode, Hamming.seq_congr h]

/-- `DECODE` looks at the bits of `din` below the length alone (R24). -/
theorem execDecode_congr {n din din' : Nat} (h : ∀ k, k < n → din.testBit k = din'.testBit k) :
    execDecode n din = execDecode n din' := by
  funext s
  rw [execDecode, execDecode, Hamming.seq_congr h]

/-- With valid parameters `y` shows the whole length of the codeword, and the codeword has no bit above it. -/
theorem execEncode_dout_lt {s t : State} (hv : s.inst.Valid) {m din : Nat} (h : execEncode m din s = .next t) :
    t.rsp.dout < 2 ^ t.rsp.y := by
  obtain ⟨-, he⟩ | ⟨hfits, he⟩ := execEncode_cases m din s <;> rw [he] at h
  · exact dout_lt_of_invalid h
  · have hy : t.rsp.y = m + Hamming.rEnc m := by
      rw [State.respond_eq] at h
      cases h
      exact zext_of_lt (hfits.trans_lt hv.2.2)
    rw [hy]
    exact dout_lt_of_respond (Hamming.vec_lt_of_length_le (by simp)) h

theorem execDecode_dout_lt {s t : State} {n din : Nat} (h : execDecode n din s = .next t) :
    t.rsp.dout < 2 ^ n := by
  obtain ⟨-, he⟩ | ⟨-, -, he⟩ | ⟨-, -, -, he⟩ | ⟨-, -, he⟩ := execDecode_cases n din s <;> rw [he] at h
  · exact dout_lt_of_invalid h
  · exact dout_lt_of_respond (by positivity) h
  · exact dout_lt_of_respond (Hamming.vec_lt_of_length_le (by simp)) h
  · exact dout_lt_of_respond (by positivity) h

theorem execCover_dout_lt {s t : State} {i n : Nat} (h : execCover i n s = .next t) : t.rsp.dout < 2 ^ n := by
  obtain ⟨-, he⟩ | ⟨-, he⟩ := execCover_cases i n s <;> rw [he] at h
  · exact dout_lt_of_invalid h
  · exact dout_lt_of_respond (Hamming.maskOf_coveredPositions_lt le_rfl) h

/-- Settles O11: `seq` reads below the length, and a packed result or mask has no bit above its length. -/
theorem vectorBitsAboveTheLength : Obligations.VectorBitsAboveTheLength :=
  ⟨fun s _ _ _ h => ⟨congrFun (execEncode_congr h) s, congrFun (execDecode_congr h) s⟩,
    fun _ _ _ _ hv h => execEncode_dout_lt hv h, fun _ _ _ _ h => execDecode_dout_lt h,
    fun _ _ _ _ h => execCover_dout_lt h⟩

theorem execDecode_of_capacity_lt {n din : Nat} {s : State} (h : s.inst.N_MAX < n) :
    execDecode n din s = .next { s with rsp := ⟨.invalid, 0, 0⟩ } := by
  rw [execDecode, if_pos h, State.invalid_eq]

theorem execEncode_of_capacity_lt {m din : Nat} {s : State} (h : s.inst.N_MAX < m + Hamming.rEnc m) :
    execEncode m din s = .next { s with rsp := ⟨.invalid, 0, 0⟩ } := by
  rw [execEncode, if_pos h, State.invalid_eq]

theorem execCover_of_capacity_lt {i n : Nat} {s : State} (h : s.inst.N_MAX < n) :
    execCover i n s = .next { s with rsp := ⟨.invalid, 0, 0⟩ } := by
  rw [execCover, if_pos h, State.invalid_eq]

theorem execEncode_of_le {m din : Nat} {s : State} (h : m + Hamming.rEnc m ≤ s.inst.N_MAX) :
    execEncode m din s =
      s.respond .ok (m + Hamming.rEnc m) (Hamming.vec (Hamming.encode (Hamming.seq din m))) :=
  ((execEncode_cases m din s).resolve_left fun hlt => not_lt.mpr h hlt.1).2

theorem execCover_of_le {i n : Nat} {s : State} (h : n ≤ s.inst.N_MAX) :
    execCover i n s = s.respond .ok 0 (Hamming.maskOf (Hamming.coveredPositions i n)) :=
  ((execCover_cases i n s).resolve_left fun hlt => not_lt.mpr h hlt.1).2

/-- `DECODE` of a length within the capacity answers with one of the statuses of R53. -/
theorem execDecode_serves {n din : Nat} {s : State} (h : n ≤ s.inst.N_MAX) :
    ∃ t, execDecode n din s = .next t ∧ t.rsp.status ≠ .invalid := by
  obtain ⟨hlt, -⟩ | ⟨-, -, he⟩ | ⟨-, -, -, he⟩ | ⟨-, -, he⟩ := execDecode_cases n din s
  · omega
  · exact ⟨_, he, Status.noConfusion⟩
  · exact ⟨_, he, Status.noConfusion⟩
  · exact ⟨_, he, Status.noConfusion⟩

/-- Settles O12: each operation's capacity check is on the length of its codeword, which for `ENCODE` is within
`N_MAX` exactly for the data lengths up to `M_MAX`. -/
theorem lengthsWithinCapacityAreServed : Obligations.LengthsWithinCapacityAreServed := by
  intro s hv
  have hcapacity (m : Nat) : m ≤ Hamming.mMax s.inst ↔ m + Hamming.rEnc m ≤ s.inst.N_MAX :=
    Hamming.le_mMax_iff hv.1
  refine ⟨fun n din h => execDecode_serves h, fun m din h => ?_, fun i n h => ?_,
    fun n din h => execDecode_of_capacity_lt h,
    fun m din h => execEncode_of_capacity_lt (not_le.mp ((hcapacity m).not.mp (not_le.mpr h))),
    fun i n h => execCover_of_capacity_lt h⟩
  · exact ⟨_, execEncode_of_le ((hcapacity m).mp h), rfl⟩
  · exact ⟨_, execCover_of_le h, rfl⟩

/-! ### Sequences of requests -/

/-- Settles O48: the first step changes the response alone, and the second drives the same response again. -/
theorem repeatingARequestChangesNothing : Obligations.RepeatingARequestChangesNothing := by
  intro s t hstep
  obtain ⟨r, hr⟩ := exec_answersByInstance (decodeRequest s.req) s.inst
  rw [step_eq, hr s rfl] at hstep
  cases hstep
  have hagain := hr { s with rsp := r } rfl
  exact ⟨hagain, hagain⟩

/-- On every core with the parameters `p` a presented request gets one response, whatever came before it (R10, R27). -/
theorem step_present_answersByInstance (q : Request) (p : Params) :
    ∃ r : Response, ∀ s : State, s.inst = p → step (s.present q) = .next { s.present q with rsp := r } := by
  obtain ⟨r, hr⟩ := exec_answersByInstance (decodeRequest q) p
  exact ⟨r, fun s hs => hr (s.present q) hs⟩

/-- One round of serving: the response of the first request, then the rest from a core with the same parameters. -/
theorem serve_cons {s : State} {q : Request} {r : Response} (qs : List Request)
    (h : step (s.present q) = .next { s.present q with rsp := r }) :
    serve s (q :: qs) = some r :: serve { s.present q with rsp := r } qs := by
  rw [serve, h]

/-- The request after `before` gets the response `r` if every core with the parameters `p` gives it `r`. -/
theorem getElem?_serve {q : Request} {p : Params} {r : Response}
    (hr : ∀ s : State, s.inst = p → step (s.present q) = .next { s.present q with rsp := r })
    (before after : List Request) {s : State} (hs : s.inst = p) :
    (serve s (before ++ q :: after))[before.length]? = some (some r) := by
  induction before generalizing s with
  | nil => simp [serve_cons after (hr s hs)]
  | cons q' before ih =>
    obtain ⟨r', hr'⟩ := step_present_answersByInstance q' p
    simpa [serve_cons _ (hr' s hs)] using ih (s := { s.present q' with rsp := r' }) hs

/-- Settles O49: the response of the request alone is the one every core with the same parameters gives it. -/
theorem requestsDoNotInfluenceEachOther : Obligations.RequestsDoNotInfluenceEachOther := by
  intro s t before after q hinst
  obtain ⟨r, hr⟩ := step_present_answersByInstance q s.inst
  exact ⟨r, hr t hinst.symm, getElem?_serve hr before after rfl⟩

end Sys2Proof.Machine

/-! ### Words of the encoding -/

namespace Sys2Proof

/-- Settles O17: the word of a fitting request decodes to its instruction, and the request of a well-formed
instruction fits and asks for that instruction. -/
theorem decodeInvertsEncode : Obligations.DecodeInvertsEncode := by
  intro p i hi
  rw [encode, decode_toWord (encodeRequest_fits_iff.mpr hi), decodeRequest_encodeRequest]

theorem slice_lt (w lo width : Nat) : slice w lo width < 2 ^ width := Nat.mod_lt _ (by positivity)

/-- A field with the rest of the word above it is the word from that field upwards. -/
theorem slice_add_two_pow_mul (w lo width : Nat) :
    slice w lo width + 2 ^ width * (w / 2 ^ (width + lo)) = w / 2 ^ lo := by
  rw [slice, Nat.add_comm width, pow_add, ← Nat.div_div_eq_div_mul, Nat.mod_add_div]

/-- The highest field of a word is all of the word from that field upwards. -/
theorem slice_highest {w lo width : Nat} (h : w < 2 ^ (lo + width)) : slice w lo width = w / 2 ^ lo :=
  Nat.mod_eq_of_lt (Nat.div_lt_of_lt_mul (by rwa [← pow_add]))

/-- Each field read from a word has its width, whatever the word. -/
theorem Request.ofWord_fits (p : Params) (w : Nat) : (Request.ofWord p w).Fits p :=
  ⟨slice_lt .., slice_lt .., slice_lt ..⟩

/-- A word of the width of R30 is the word of its own fields. -/
theorem Request.toWord_ofWord {p : Params} {w : Nat} (h : w < 2 ^ (3 + 2 * p.XW + p.N_MAX)) :
    (Request.ofWord p w).toWord p = w := by
  have hop : (BitVec.ofNat 3 (slice w 0 3)).toNat = slice w 0 3 := Nat.mod_eq_of_lt (slice_lt ..)
  have hdin : slice w (2 * p.XW + 3) p.N_MAX = w / 2 ^ (p.XW + (p.XW + 3)) := by
    rw [slice_highest (by rwa [Nat.add_comm _ 3]), Nat.two_mul, Nat.add_assoc]
  rw [Request.toWord_of_fits (Request.ofWord_fits p w), Request.ofWord, hop, hdin, slice_add_two_pow_mul,
    slice_add_two_pow_mul, slice_add_two_pow_mul w 0 3, pow_zero, Nat.div_one]

/-- Settles O14: what is read from the word of a fitting request is the request, field by field, and a word of the
width is put together from its fields. -/
theorem requestWordLayout : Obligations.RequestWordLayout := by
  refine fun p => ⟨fun q hq => ?_, fun w => Request.toWord_ofWord⟩
  have hlt : q.toWord p < 2 ^ (3 + 2 * p.XW + p.N_MAX) := q.toWord_lt p
  have hread := Request.ofWord_toWord hq
  have hdin : slice (q.toWord p) (2 * p.XW + 3) p.N_MAX = q.din := congrArg Request.din hread
  rw [slice_highest (by rwa [Nat.add_comm _ 3])] at hdin
  refine ⟨hlt, ?_, congrArg Request.a hread, congrArg Request.b hread, hdin, hread⟩
  rw [Request.toWord, Nat.add_mul_mod_self_left, Nat.mod_eq_of_lt q.op.isLt]

/-! ### Response words -/

/-- Every 2-bit code is the code of its status (R36). -/
@[simp] theorem Status.code_ofCode (c : BitVec 2) : (Status.ofCode c).code = c := by
  revert c
  decide

@[simp] theorem Status.ofCode_code (status : Status) : Status.ofCode status.code = status := by
  cases status <;> rfl

/-- The word of a response whose fields fit, with no field cut (R31). -/
theorem Response.toWord_of_fits {p : Params} {r : Response} (h : r.Fits p) :
    r.toWord p = r.status.code.toNat + 2 ^ 2 * (r.y + 2 ^ p.XW * r.dout) := by
  rw [Response.toWord, Nat.mod_eq_of_lt h.1, Nat.mod_eq_of_lt h.2]

theorem Response.toWord_lt {p : Params} {r : Response} (h : r.Fits p) :
    r.toWord p < 2 ^ (2 + p.XW + p.N_MAX) := by
  rw [Response.toWord_of_fits h, Nat.add_assoc]
  exact add_two_pow_mul_lt r.status.code.isLt (add_two_pow_mul_lt h.1 h.2)

/-- The word of a response whose fields fit holds each field in its place (R31). -/
theorem Response.ofWord_toWord {p : Params} {r : Response} (h : r.Fits p) :
    Response.ofWord p (r.toWord p) = r := by
  rw [Response.toWord_of_fits h]
  have hcode : r.status.code.toNat < 2 ^ 2 := r.status.code.isLt
  have hstatus : Status.ofCode (BitVec.ofNat 2 r.status.code.toNat) = r.status := by simp
  have hdout : slice r.dout 0 p.N_MAX = r.dout := slice_lowest 0 h.2
  rw [Response.ofWord, slice_lowest _ hcode, hstatus, slice_above_lowest _ _ hcode, slice_above _ _ _ hcode,
    slice_lowest _ h.1, slice_above_lowest _ _ h.1, hdout]

/-- Each field read from a word has its width, whatever the word. -/
theorem Response.ofWord_fits (p : Params) (w : Nat) : (Response.ofWord p w).Fits p := ⟨slice_lt .., slice_lt ..⟩

/-- A word of the width of R31 is the word of its own fields. -/
theorem Response.toWord_ofWord {p : Params} {w : Nat} (h : w < 2 ^ (2 + p.XW + p.N_MAX)) :
    (Response.ofWord p w).toWord p = w := by
  have hcode : (BitVec.ofNat 2 (slice w 0 2)).toNat = slice w 0 2 := Nat.mod_eq_of_lt (slice_lt ..)
  have hdout : slice w (p.XW + 2) p.N_MAX = w / 2 ^ (p.XW + 2) := slice_highest (by rwa [Nat.add_comm _ 2])
  rw [Response.toWord_of_fits (Response.ofWord_fits p w), Response.ofWord, Status.code_ofCode, hcode, hdout,
    slice_add_two_pow_mul, slice_add_two_pow_mul w 0 2, pow_zero, Nat.div_one]

/-- Settles O15: what is read from the word of a fitting response is the response, field by field, and a word of
the width is put together from its fields. -/
theorem responseWordLayout : Obligations.ResponseWordLayout := by
  refine fun p => ⟨fun r hr => ?_, fun w => Response.toWord_ofWord⟩
  have hlt := Response.toWord_lt hr
  have hread := Response.ofWord_toWord hr
  have hdout : slice (r.toWord p) (p.XW + 2) p.N_MAX = r.dout := congrArg Response.dout hread
  rw [slice_highest (by rwa [Nat.add_comm _ 2])] at hdout
  refine ⟨hlt, ?_, congrArg Response.y hread, hdout, hread⟩
  rw [Response.toWord, Nat.add_mul_mod_self_left, Nat.mod_eq_of_lt r.status.code.isLt]

/-! ### Operation codes -/

/-- The eight operation codes (R32). -/
theorem opcode_cases (op : BitVec 3) :
    op = 0#3 ∨ op = 1#3 ∨ op = 2#3 ∨ op = 3#3 ∨ op = 4#3 ∨ op = 5#3 ∨ op = 6#3 ∨ op = 7#3 := by
  revert op
  decide

/-- What a request asks for, by its operation code (R32, R33). -/
theorem decodeRequest_cases (q : Request) :
    (q.op = 0#3 ∧ decodeRequest q = .pcount q.a) ∨ (q.op = 1#3 ∧ decodeRequest q = .ispow2 q.a) ∨
    (q.op = 2#3 ∧ decodeRequest q = .encode q.a q.din) ∨ (q.op = 3#3 ∧ decodeRequest q = .decode q.a q.din) ∨
    (q.op = 4#3 ∧ decodeRequest q = .cover q.b q.a) ∨ (q.op = 5#3 ∧ decodeRequest q = .reserved5) ∨
    (q.op = 6#3 ∧ decodeRequest q = .reserved6) ∨ (q.op = 7#3 ∧ decodeRequest q = .reserved7) := by
  obtain ⟨op, a, b, din⟩ := q
  rcases opcode_cases op with rfl | rfl | rfl | rfl | rfl | rfl | rfl | rfl <;> simp [decodeRequest]

@[simp] theorem opcode_decodeRequest (q : Request) : (decodeRequest q).opcode = q.op := by
  obtain ⟨hop, h⟩ | ⟨hop, h⟩ | ⟨hop, h⟩ | ⟨hop, h⟩ | ⟨hop, h⟩ | ⟨hop, h⟩ | ⟨hop, h⟩ | ⟨hop, h⟩ :=
    decodeRequest_cases q <;> rw [hop, h, Instr.opcode]

/-- Settles O16: each code is one arm of the decoder, which looks at no other field. -/
theorem operationCodeSelectsTheOperation : Obligations.OperationCodeSelectsTheOperation :=
  ⟨opcode_decodeRequest, fun _ _ _ => ⟨rfl, rfl, rfl, rfl, rfl, rfl, rfl, rfl⟩⟩

/-- The operands of what a fitting request asks for are fields of the request, so they fit. -/
theorem decodeRequest_wellFormed {p : Params} {q : Request} (h : q.Fits p) :
    (decodeRequest q).wellFormed p = true := by
  obtain ⟨ha, hb, hdin⟩ := h
  obtain ⟨-, h⟩ | ⟨-, h⟩ | ⟨-, h⟩ | ⟨-, h⟩ | ⟨-, h⟩ | ⟨-, h⟩ | ⟨-, h⟩ | ⟨-, h⟩ :=
    decodeRequest_cases q <;> simp [h, Instr.wellFormed, ha, hb, hdin]

/-- The one case analysis on the decoder: it reads the fields of a request word, and refuses a wider number. -/
theorem decode_cases (p : Params) (w : Nat) :
    (w < 2 ^ p.reqBits ∧ decode p w = .ok (decodeRequest (Request.ofWord p w))) ∨
    (2 ^ p.reqBits ≤ w ∧ decode p w = .error .widerThanRequest) := by
  by_cases h : w < 2 ^ p.reqBits
  · exact .inl ⟨h, if_pos h⟩
  · exact .inr ⟨not_lt.mp h, if_neg h⟩

/-- Settles O18: the fields of every word fit, and the decoder's one test is on the width. -/
theorem decodedInstructionIsWellFormed : Obligations.DecodedInstructionIsWellFormed := by
  intro p w
  obtain ⟨hlt, h⟩ | ⟨hle, h⟩ := decode_cases p w <;> rw [h]
  · refine ⟨fun i hi => ?_, iff_of_false nofun (not_le.mpr hlt)⟩
    obtain rfl := Except.ok.inj hi
    refine ⟨decodeRequest_wellFormed (Request.ofWord_fits p w), ?_⟩
    rw [opcode_decodeRequest]
    simp [Request.ofWord, slice]
  · exact ⟨nofun, iff_of_true rfl hle⟩

end Sys2Proof

/-! ### Ignored fields, reserved codes and the status codes -/

namespace Sys2Proof.Machine

/-- Settles O40: a reserved code selects a reserved instruction, which answers `INVALID`. -/
theorem reservedCodesAnswerInvalid : Obligations.ReservedCodesAnswerInvalid := by
  intro s a b din
  refine ⟨s.invalid_eq, s.invalid_eq, s.invalid_eq, fun op hop => ?_⟩
  have hreserved : op = 5#3 ∨ op = 6#3 ∨ op = 7#3 := by
    revert op
    decide
  obtain rfl | rfl | rfl := hreserved <;> exact State.invalid_eq _

/-- Requests that differ only in fields or bits their operation does not use ask for the same meaning (R35). -/
theorem exec_decodeRequest_congr {q q' : Request} (hop : q.op = q'.op) (ha : q.op.toNat ≤ 4 → q.a = q'.a)
    (hb : q.op = 4#3 → q.b = q'.b)
    (hdin : q.op = 2#3 ∨ q.op = 3#3 → ∀ k, k < q.a → q.din.testBit k = q'.din.testBit k) :
    exec (decodeRequest q) = exec (decodeRequest q') := by
  obtain ⟨op, a, b, din⟩ := q
  obtain ⟨op', a', b', din'⟩ := q'
  dsimp only at hop ha hb hdin
  subst hop
  rcases opcode_cases op with rfl | rfl | rfl | rfl | rfl | rfl | rfl | rfl
  · cases ha (by decide)
    rfl
  · cases ha (by decide)
    rfl
  · cases ha (by decide)
    exact execEncode_congr (hdin (.inl rfl))
  · cases ha (by decide)
    exact execDecode_congr (hdin (.inr rfl))
  · cases ha (by decide)
    cases hb rfl
    rfl
  · rfl
  · rfl
  · rfl

/-- Settles O41: the two requests ask for the same meaning, whose response the parameters fix. -/
theorem ignoredBitsDoNotMatter : Obligations.IgnoredBitsDoNotMatter := by
  intro s t q q' hinst hop ha hb hdin
  obtain ⟨r, hr⟩ := exec_answersByInstance (decodeRequest q) s.inst
  have hmeaning := exec_decodeRequest_congr hop ha hb hdin
  refine ⟨r, hr _ rfl, ?_⟩
  rw [step_eq, State.present_req, ← hmeaning]
  exact hr _ hinst.symm

theorem status_of_respond {s t : State} {status : Status} {y dout : Nat}
    (h : s.respond status y dout = .next t) : t.rsp.status = status := by
  cases h
  rfl

/-- Every operation but `DECODE` either serves its request with `OK` or does not serve it (R63, R64). -/
theorem status_of_exec {i : Instr} {s t : State} (h : exec i s = .next t) :
    (∃ n din, i = .decode n din) ∨ t.rsp.status = .ok ∨ t.rsp.status = .invalid := by
  cases i with
  | pcount m => exact .inr (.inl (status_of_respond h))
  | ispow2 x => exact .inr (.inl (status_of_respond h))
  | encode m din =>
    obtain ⟨-, he⟩ | ⟨-, he⟩ := execEncode_cases m din s <;> rw [exec_encode, he] at h
    · exact .inr (.inr (status_of_respond h))
    · exact .inr (.inl (status_of_respond h))
  | decode n din => exact .inl ⟨n, din, rfl⟩
  | cover i n =>
    obtain ⟨-, he⟩ | ⟨-, he⟩ := execCover_cases i n s <;> rw [exec_cover, he] at h
    · exact .inr (.inr (status_of_respond h))
    · exact .inr (.inl (status_of_respond h))
  | reserved5 => exact .inr (.inr (status_of_respond h))
  | reserved6 => exact .inr (.inr (status_of_respond h))
  | reserved7 => exact .inr (.inr (status_of_respond h))

/-- `DECODE` answers status 0 for syndrome 0 alone (R53, R56). -/
theorem syndrome_eq_zero_of_status_ok {n din : Nat} {s t : State} (h : execDecode n din s = .next t)
    (hok : t.rsp.status = .ok) : Hamming.syndrome (Hamming.seq din n) = 0 := by
  obtain ⟨-, he⟩ | ⟨-, hsyndrome, -⟩ | ⟨-, -, -, he⟩ | ⟨-, -, he⟩ := execDecode_cases n din s
  · exact absurd (hok.symm.trans (status_of_respond (he ▸ h))) (by decide)
  · exact hsyndrome
  · exact absurd (hok.symm.trans (status_of_respond (he ▸ h))) (by decide)
  · exact absurd (hok.symm.trans (status_of_respond (he ▸ h))) (by decide)

/-- Settles O42: only `DECODE` answers other than `OK` and `INVALID`, and it answers `OK` in the case of syndrome 0
alone. -/
theorem statusCodesAndProducers : Obligations.StatusCodesAndProducers := by
  refine ⟨rfl, rfl, rfl, rfl, Status.code_ofCode, fun i s t h hstatus => ?_,
    fun n din s t => syndrome_eq_zero_of_status_ok⟩
  obtain hdecode | hok | hinvalid := status_of_exec h
  · exact hdecode
  · simp [hok] at hstatus
  · simp [hinvalid] at hstatus

end Sys2Proof.Machine

/-! ### The decoder on a codeword with one flipped bit -/

namespace Sys2Proof.Hamming

/-- The Decoder's parity of a check is the stored parity bit and the parity the Encoder computes (R47, R52). -/
theorem decoderParity_eq_bitAt_xor_encoderParity {c : BitSeq} {i : Nat} (h : parityPos i ≤ c.length) :
    decoderParity c i = (bitAt c (parityPos i) ^^ encoderParity c i) := by
  have hmem : parityPos i ∈ coveredPositions i c.length :=
    mem_coveredPositions.mpr ⟨⟨Nat.one_le_two_pow, h⟩, Nat.testBit_two_pow_self⟩
  have hnodup : (coveredPositions i c.length).Nodup := (nodup_positions c.length).filter _
  rw [decoderParity, parity_perm c (List.perm_cons_erase hmem), parity_cons, hnodup.erase_eq_filter, encoderParity]

/-- "every check is even over its whole covering set" (R49): step 4 stored the parity of the rest. -/
theorem decoderParity_encode {data : BitSeq} {i : Nat} (h : i < rEnc data.length) :
    decoderParity (encode data) i = false := by
  have hlength : parityPos i ≤ nOf data.length := lt_rDec_iff.mp (by rwa [rDec_nOf])
  rw [decoderParity_eq_bitAt_xor_encoderParity (by simpa [nOf] using hlength), encode,
    encoderParity_storeParities, bitAt_storeParities _ (List.mem_range.mpr h) (by simpa [nOf] using hlength),
    Bool.xor_self]

/-- Bit `i` of the syndrome is the parity of check `i` (R52). -/
theorem testBit_syndrome (code : BitSeq) (i : Nat) :
    (syndrome code).testBit i = (decide (i < rDec code.length) && decoderParity code i) :=
  (syndromeOver_range code (rDec code.length)).2 i

/-- A codeword has syndrome 0 (R49). -/
@[simp] theorem syndrome_encode (data : BitSeq) : syndrome (encode data) = 0 := by
  refine Nat.zero_of_testBit_eq_false fun i => ?_
  rw [testBit_syndrome, length_encode, ← nOf, rDec_nOf]
  by_cases h : i < rEnc data.length
  · rw [decoderParity_encode h, Bool.and_false]
  · simp [h]

/-- A flip at position `p` changes the syndrome by `p`: it changes the checks that cover `p`, which are the bits of
`p` (R52, R60). -/
theorem syndrome_flip {code : BitSeq} {p : Nat} (h₁ : 1 ≤ p) (h₂ : p ≤ code.length) :
    syndrome (flip code p) = syndrome code ^^^ p := by
  refine Nat.eq_of_testBit_eq fun i => ?_
  rw [Nat.testBit_xor, testBit_syndrome, testBit_syndrome, length_flip]
  by_cases hi : i < rDec code.length
  · have hcovers : decide (p ∈ coveredPositions i code.length) = p.testBit i := by
      simp [mem_coveredPositions, h₁, h₂]
    have hparity : decoderParity (flip code p) i = (p.testBit i ^^ decoderParity code i) := by
      have hnodup : (coveredPositions i code.length).Nodup := (nodup_positions code.length).filter _
      rw [decoderParity, length_flip, parity_flip code h₁ h₂ hnodup, hcovers, decoderParity]
    simp [hi, hparity, Bool.xor_comm]
  · have hzero : p.testBit i = false :=
      Nat.testBit_lt_two_pow (h₂.trans_lt (rDec_le_iff.mp (not_lt.mp hi)))
    simp [hi, hzero]

/-- Flipping a bit twice leaves it as it was. -/
@[simp] theorem flip_flip (c : BitSeq) (p : Nat) : flip (flip c p) p = c := by
  refine ext_bitAt (by simp) fun j _ _ => ?_
  rw [bitAt_flip, bitAt_flip, length_flip]
  split <;> simp

/-- Flipping any one bit of a codeword is corrected, naming the position (R57). -/
theorem decodeAndCorrect_flip_encode {data : BitSeq} {p : Nat} (h₁ : 1 ≤ p) (h₂ : p ≤ nOf data.length) :
    decodeAndCorrect (flip (encode data) p) = .corrected p (encode data) := by
  have hlength : (encode data).length = nOf data.length := length_encode data
  have hsyndrome : syndrome (flip (encode data) p) = p := by
    rw [syndrome_flip h₁ (by rwa [hlength]), syndrome_encode, Nat.zero_xor]
  obtain ⟨h, -⟩ | ⟨-, -, h⟩ | ⟨h, -⟩ := decodeAndCorrect_cases (flip (encode data) p)
  · omega
  · rw [h, hsyndrome, flip_flip]
  · rw [length_flip] at h
    omega

end Sys2Proof.Hamming

/-! ### Written lines -/

namespace Sys2Proof.Machine

/-- What a served `ENCODE` answers with valid parameters: nothing is cut (R48). -/
theorem execEncode_of_fits {s : State} (hv : s.inst.Valid) {m : Nat} (din : Nat)
    (h : m + Hamming.rEnc m ≤ s.inst.N_MAX) :
    execEncode m din s = .next
      { s with rsp := ⟨.ok, m + Hamming.rEnc m, Hamming.vec (Hamming.encode (Hamming.seq din m))⟩ } := by
  rw [execEncode_of_le h]
  exact s.respond_of_fits _ (h.trans_lt hv.2.2) (Hamming.vec_lt_of_length_le (by simpa using h))

/-- What `DECODE` answers with valid parameters when the Corrector corrects: nothing is cut (R56). -/
theorem execDecode_of_corrected {s : State} (hv : s.inst.Valid) {n din position : Nat} {codeword : BitSeq}
    (hn : n ≤ s.inst.N_MAX) (hposition : position ≤ n) (hlength : codeword.length = n)
    (h : Hamming.decodeAndCorrect (Hamming.seq din n) = .corrected position codeword) :
    execDecode n din s = .next { s with rsp := ⟨.corrected, position, Hamming.vec codeword⟩ } := by
  rw [execDecode, if_neg (not_lt.mpr hn), h]
  exact s.respond_of_fits _ ((hposition.trans hn).trans_lt hv.2.2)
    (Hamming.vec_lt_of_length_le (hlength.le.trans hn))

/-- What a written request gives: the response of the request built from it. -/
theorem lineResult_request {s : State} {i : Instr} {q : Request} {r : Response}
    (hq : requestOfLine s.inst i = some q) (hr : step (s.present q) = .next { s.present q with rsp := r }) :
    lineResult s (.request i) = some (.response r) := by
  rw [lineResult, hq, Option.bind_some, hr, responseOf, Option.map_some]

/-- A written `ENCODE` line whose length field `a` can hold is a request, with as many of its bits as `din` has
places for (log entry 18). -/
theorem requestOfLine_encodeLine {p : Params} {bits : BitSeq} (h : bits.length < 2 ^ p.XW) :
    requestOfLine p (encodeLine bits) = some ⟨2#3, bits.length, 0, Hamming.vec bits % 2 ^ p.N_MAX⟩ :=
  if_pos ⟨h, by positivity⟩

/-- The same of a written `DECODE` line. -/
theorem requestOfLine_decodeLine {p : Params} {bits : BitSeq} (h : bits.length < 2 ^ p.XW) :
    requestOfLine p (decodeLine bits) = some ⟨3#3, bits.length, 0, Hamming.vec bits % 2 ^ p.N_MAX⟩ :=
  if_pos ⟨h, by positivity⟩

/-- The input port carries every bit of a word within its width. -/
theorem seq_vec_mod {bits : BitSeq} {w : Nat} (h : bits.length ≤ w) :
    Hamming.seq (Hamming.vec bits % 2 ^ w) bits.length = bits := by
  rw [Nat.mod_eq_of_lt (Hamming.vec_lt_of_length_le h), Hamming.seq_vec]

/-- Data within `M_MAX` bits: the `ENCODE` line gives its codeword and the codeword's length (R37, R48). -/
theorem lineResult_encodeLine {s : State} {bits : BitSeq} (hv : s.inst.Valid)
    (h : bits.length ≤ Hamming.mMax s.inst) :
    lineResult s (.request (encodeLine bits)) =
      some (.response ⟨.ok, Hamming.nOf bits.length, Hamming.vec (Hamming.encode bits)⟩) := by
  have hn : bits.length + Hamming.rEnc bits.length ≤ s.inst.N_MAX := Hamming.nOf_le_of_le_mMax hv.1 h
  have hlength : bits.length ≤ s.inst.N_MAX := Nat.le_of_add_right_le hn
  refine lineResult_request (requestOfLine_encodeLine (hlength.trans_lt hv.2.2)) ?_
  have hstep (q : Request) := execEncode_of_fits (s := s.present q) hv (Hamming.vec bits % 2 ^ s.inst.N_MAX) hn
  rw [seq_vec_mod hlength] at hstep
  exact hstep _

/-- A codeword with one bit flipped: the `DECODE` line gives the position and the codeword (R37, R57). -/
theorem lineResult_decodeLine_flip {s : State} {bits : BitSeq} {p : Nat} (hv : s.inst.Valid)
    (h : bits.length ≤ Hamming.mMax s.inst) (h₁ : 1 ≤ p) (h₂ : p ≤ Hamming.nOf bits.length) :
    lineResult s (.request (decodeLine (Hamming.flip (Hamming.encode bits) p))) =
      some (.response ⟨.corrected, p, Hamming.vec (Hamming.encode bits)⟩) := by
  have hlength : (Hamming.flip (Hamming.encode bits) p).length = Hamming.nOf bits.length := by
    rw [Hamming.length_flip, Hamming.length_encode, Hamming.nOf]
  have hn := Hamming.nOf_le_of_le_mMax hv.1 h
  rw [← hlength] at hn h₂
  refine lineResult_request (requestOfLine_decodeLine (hn.trans_lt hv.2.2)) ?_
  have hcorrected := Hamming.decodeAndCorrect_flip_encode h₁ (h₂.trans_eq hlength)
  rw [← seq_vec_mod hn] at hcorrected
  exact execDecode_of_corrected (s := s.present _) hv hn h₂ (Hamming.length_flip ..).symm hcorrected

/-- Settles O56: within the capacity a line's bits reach the core whole; above it the length alone settles the
response. -/
theorem writtenLinesMeanTheirBits : Obligations.WrittenLinesMeanTheirBits := by
  intro s bits p hv
  refine ⟨fun h => ⟨lineResult_encodeLine hv h, ?_, fun h₁ h₂ => ?_⟩, fun h hlength => ?_, fun h hlength => ?_⟩
  · rw [lineResult, Hamming.extractData_encode]
  · refine ⟨_, if_pos ⟨h₁, ?_⟩, lineResult_decodeLine_flip hv h h₁ h₂⟩
    rwa [Hamming.length_encode]
  · have hcapacity : s.inst.N_MAX < Hamming.nOf bits.length :=
      not_le.mp ((Hamming.le_mMax_iff hv.1).not.mp (not_le.mpr h))
    exact lineResult_request (requestOfLine_encodeLine hlength) (execEncode_of_capacity_lt hcapacity)
  · exact lineResult_request (requestOfLine_decodeLine hlength) (execDecode_of_capacity_lt h)

end Sys2Proof.Machine

/-! ### The parity counts and the power-of-two test -/

namespace Sys2Proof.Hamming

/-- The budget of R39 grows by 1 with each further parity bit and `2^r` at least by 1, so once met it stays met. -/
theorem budget_le_two_pow_of_le {m r r' : Nat} (hr : r ≤ r') (h : m + r + 1 ≤ 2 ^ r) : m + r' + 1 ≤ 2 ^ r' := by
  induction r', hr using Nat.le_induction with
  | base => exact h
  | succ r' _ ih => rw [pow_succ]; omega

/-- `r` parity bits suffice for `m` data bits exactly when they meet the budget of R39. -/
theorem rEnc_le_iff {m r : Nat} (hr : 1 ≤ r) : rEnc m ≤ r ↔ m + r + 1 ≤ 2 ^ r := by
  obtain ⟨-, -, hmeets, hleast⟩ := rEnc_spec m
  exact ⟨fun h => budget_le_two_pow_of_le h hmeets, hleast r hr⟩

/-- The data lengths that need exactly `r` parity bits (the table of R39). -/
theorem rEnc_eq_iff {m r : Nat} (hr : 2 ≤ r) :
    rEnc m = r ↔ 2 ^ (r - 1) - (r - 1) ≤ m ∧ m ≤ 2 ^ r - r - 1 := by
  have hle : rEnc m ≤ r ↔ m + r + 1 ≤ 2 ^ r := rEnc_le_iff (by omega)
  have hle_pred : rEnc m ≤ r - 1 ↔ m + (r - 1) + 1 ≤ 2 ^ (r - 1) := rEnc_le_iff (by omega)
  have hroom : r + 1 < 2 ^ r := succ_lt_two_pow hr
  omega

/-- Settles O1: what `rEnc` is known to be, with the ranges that follow from which counts suffice. -/
theorem parityCountIsLeastPositive : Obligations.ParityCountIsLeastPositive := by
  intro m
  obtain ⟨hone, hbound, hmeets, hleast⟩ := rEnc_spec m
  exact ⟨hone, hmeets, hleast, hbound, rfl, fun r => rEnc_eq_iff⟩

/-- The largest number of `w` bits, as a data length, needs `w + 1` parity bits (R40). -/
theorem rEnc_two_pow_sub_one {w : Nat} (h : 1 ≤ w) : rEnc (2 ^ w - 1) = w + 1 := by
  have hroom : w + 1 ≤ 2 ^ w := Nat.lt_two_pow_self
  rw [rEnc_eq_iff (by omega), Nat.add_sub_cancel, pow_succ]
  omega

/-- The test on an integer as R41 words it. -/
theorem isPowerOfTwo_iff_and_eq_zero (x : Int) :
    isPowerOfTwo x = true ↔ 0 < x ∧ x.toNat &&& (x.toNat - 1) = 0 := by
  rw [isPowerOfTwo]
  split
  case isTrue h => exact iff_of_false Bool.false_ne_true fun hpos => absurd hpos.1 (not_lt.mpr h)
  case isFalse h => rw [beq_iff_eq, and_iff_right (not_le.mp h)]

theorem isPowerOfTwo_of_neg {x : Int} (h : x < 0) : isPowerOfTwo x = false := if_pos h.le

/-- The integers that pass the test are natural numbers, and of these the powers of two pass it (R41). -/
theorem isPowerOfTwo_iff (x : Int) : isPowerOfTwo x = true ↔ ∃ k : Nat, x = 2 ^ k := by
  rcases lt_or_ge x 0 with hneg | hnonneg
  · rw [isPowerOfTwo_of_neg hneg]
    refine iff_of_false Bool.false_ne_true ?_
    rintro ⟨k, rfl⟩
    exact absurd hneg (not_lt.mpr (by positivity))
  · lift x to Nat using hnonneg
    rw [isPowerOfTwo_natCast_iff]
    norm_cast

/-- Settles O3: the two readings of the test, and its boundary cases by evaluation. -/
theorem powerOfTwoTestIsExact : Obligations.PowerOfTwoTestIsExact :=
  ⟨isPowerOfTwo_iff, isPowerOfTwo_iff_and_eq_zero, fun _ => isPowerOfTwo_of_neg, by decide⟩

/-- The largest number of `w` bits lies between `2^(w-1)` and `2^w` (R42). -/
theorem isPowerOfTwo_two_pow_sub_one {w : Nat} (h : 2 ≤ w) : isPowerOfTwo ((2 ^ w - 1 : Nat) : Int) = false := by
  obtain ⟨w, rfl⟩ := Nat.exists_eq_add_of_le' h
  refine isPowerOfTwo_eq_false_of_between (r := w + 2) ?_ (Nat.sub_one_lt (by positivity))
  have hpos : 0 < 2 ^ w := by positivity
  rw [Nat.add_succ_sub_one, pow_succ, pow_succ]
  omega

/-- A search that starts at 1 ends at the same count, since a codeword with a position needs a check (R43). -/
theorem minimalCheckCount_one_eq_rDec {n : Nat} (h : 1 ≤ n) : minimalCheckCount (fun _ => n + 1) n 1 = rDec n := by
  obtain ⟨hmeets, hleast⟩ := rDec_spec n
  have hone : 1 ≤ rDec n := lt_rDec_iff.mpr h
  obtain ⟨-, -, hfound, hpassed⟩ :=
    minimalCheckCount_spec (budget := fun _ => n + 1) (rounds := n) (start := 1)
      ⟨n, h, by omega, Nat.lt_two_pow_self⟩
  refine le_antisymm (not_lt.mp fun hlt => ?_) (hleast _ hfound)
  exact absurd (hpassed _ hone hlt) (not_lt.mpr hmeets)

/-- Settles O5: `rDec` counts the bits of `n`, and check 0 of the empty codeword covers no position. -/
theorem checkCountIsBitLength : Obligations.CheckCountIsBitLength := by
  intro n
  obtain ⟨hmeets, hleast⟩ := rDec_spec n
  exact ⟨hmeets, hleast, rfl, fun h => rDec_eq_log2_succ (by omega), fun i => lt_rDec_iff,
    minimalCheckCount_one_eq_rDec, rfl, rfl⟩

/-- Settles O6: `m + rEnc(m)` is the encoded length `nOf(m)`. -/
theorem decoderCountMatchesEncoder : Obligations.DecoderCountMatchesEncoder := rDec_nOf

/-- The reachable lengths (R45): 1 for no data, and otherwise the numbers that are no power of two, of which the
least is 3. -/
theorem exists_eq_nOf_iff (n : Nat) : (∃ m, n = nOf m) ↔ n = 1 ∨ (3 ≤ n ∧ isPowerOfTwo (n : Int) = false) := by
  constructor
  · rintro ⟨m, rfl⟩
    rcases Nat.eq_zero_or_pos m with rfl | hm
    · exact .inl nOf_zero
    · exact .inr ⟨(nOf_mono hm : nOf 1 ≤ nOf m), isPowerOfTwo_nOf hm⟩
  · rintro (rfl | ⟨hthree, hdata⟩)
    · exact ⟨0, nOf_zero.symm⟩
    · obtain ⟨m, hm, hn⟩ := (exists_dataPos_eq_iff n).mpr ⟨by omega, hdata⟩
      exact ⟨m, by rw [← hn, dataPos_eq_nOf hm]⟩

/-- Taking the parity bits off an encoded length leaves the data length (R45). -/
theorem nOf_sub_rDec_nOf (m : Nat) : nOf m - rDec (nOf m) = m := by
  rw [rDec_nOf, nOf, Nat.add_sub_cancel]

/-- Settles O7: from the order of the lengths, the data positions they are, and the capacity lemma; the listed
values by evaluation. -/
theorem codewordLengthsAndCapacity : Obligations.CodewordLengthsAndCapacity := by
  refine ⟨fun m m' => nOf_lt_nOf, by decide, exists_eq_nOf_iff, ?_, fun p hp m => le_mMax_iff hp.1, by decide⟩
  rintro _ m rfl
  exact (nOf_sub_rDec_nOf m).symm

end Sys2Proof.Hamming

/-! ### The operations of the ParityPlanner -/

namespace Sys2Proof.Machine

/-- `PCOUNT` with valid parameters: the count of an operand the field holds is not cut (R40). -/
theorem execPcount_of_lt {s : State} (hv : s.inst.Valid) {m : Nat} (hm : m < 2 ^ s.inst.XW) :
    execPcount m s = .next { s with rsp := ⟨.ok, Hamming.rEnc m, 0⟩ } :=
  s.respond_of_fits _ ((Hamming.rEnc_le_of_lt_two_pow hm).trans_lt (Hamming.succ_lt_two_pow hv.2.1)) (by positivity)

/-- Settles O2: a presented request with operation code 0 runs `PCOUNT` on its field `a`. -/
theorem pcountAnswersTheParityCount : Obligations.PcountAnswersTheParityCount := by
  intro s m hv hm
  have hwidth : 2 ≤ s.inst.XW := hv.2.1
  exact ⟨execPcount_of_lt hv hm, fun b din => execPcount_of_lt (s := s.present ⟨0#3, m, b, din⟩) hv hm, rfl,
    Hamming.rEnc_two_pow_sub_one (by omega), Hamming.succ_lt_two_pow hwidth, rfl⟩

/-- `ISPOW2` with valid parameters: 1 and 0 fit the integer field (R42). -/
theorem execIspow2_of_valid {s : State} (hv : s.inst.Valid) (x : Nat) :
    execIspow2 x s = .next { s with rsp := ⟨.ok, if Hamming.isPowerOfTwo x then 1 else 0, 0⟩ } := by
  have hone : 1 < 2 ^ s.inst.XW := hv.1.trans_lt hv.2.2
  refine s.respond_of_fits _ ?_ (by positivity)
  split
  · exact hone
  · exact Nat.zero_lt_of_lt hone

/-- Settles O4: a presented request with operation code 1 runs `ISPOW2` on its field `a`. -/
theorem ispow2AnswersTheTest : Obligations.Ispow2AnswersTheTest := by
  intro s x hv _
  exact ⟨execIspow2_of_valid hv x, fun b din => execIspow2_of_valid (s := s.present ⟨1#3, x, b, din⟩) hv x,
    rfl, rfl, (Hamming.isPowerOfTwo_natCast_iff _).mpr ⟨_, rfl⟩, Hamming.isPowerOfTwo_two_pow_sub_one hv.2.1,
    fun z => Hamming.isPowerOfTwo_of_neg, rfl, rfl⟩

end Sys2Proof.Machine

/-! ### The codeword position by position -/

namespace Sys2Proof.Hamming

/-- The `k`-th data bit of a codeword is the `k`-th bit of its data (R22, R47). -/
theorem bitAt_encode_dataPos {data : BitSeq} {k : Nat} (h₁ : 1 ≤ k) (h₂ : k ≤ data.length) :
    bitAt (encode data) (dataPos k) = bitAt data k := by
  rw [← bitAt_extractData (encode data) h₁ (by simpa using h₂), extractData_encode]

/-- The data positions of an encoded length are `dataPos(1), …, dataPos(m)`. -/
theorem dataPositions_nOf (m : Nat) : dataPositions (nOf m) = (positions m).map dataPos := by
  refine List.ext_getElem (by simp) fun k h _ => ?_
  have hj := eq_nOf_of_getElem?_dataPositions (List.getElem?_eq_getElem h)
  simp [positions, hj, Nat.add_comm 1 k, dataPos_eq_nOf]

/-- A check covers its own parity position and otherwise data positions alone (R60). -/
theorem coveredPositions_filter_ne_parityPos (i n : Nat) :
    (coveredPositions i n).filter (fun j => j != parityPos i) = (dataPositions n).filter (fun j => j.testBit i) := by
  rw [coveredPositions_eq, dataPositions, List.filter_filter, List.filter_filter]
  refine List.filter_congr fun j _ => ?_
  by_cases hj : isPowerOfTwo (j : Int) = true
  · obtain ⟨k, hk⟩ := (isPowerOfTwo_natCast_iff j).mp hj
    rw [hj, hk, parityPos, Nat.testBit_two_pow]
    by_cases hi : k = i <;> simp [hi]
  · have hne : j ≠ parityPos i := fun h => hj ((isPowerOfTwo_natCast_iff j).mpr ⟨i, h⟩)
    simp [hj, hne]

/-- The parity the Encoder computes for a check is that of the data positions it covers (R47). -/
theorem encoderParity_eq_parity_dataPositions (c : BitSeq) (i : Nat) :
    encoderParity c i = parity c ((dataPositions c.length).filter fun j => j.testBit i) := by
  rw [encoderParity, coveredPositions_filter_ne_parityPos]

/-- Reading one sequence at the images of positions where another has the same bits gives the same parity. -/
theorem parity_map {c d : BitSeq} {f : Nat → Nat} {set : List Nat} (h : ∀ k ∈ set, bitAt c (f k) = bitAt d k) :
    parity c (set.map f) = parity d set := by
  induction set with
  | nil => rfl
  | cons k ks ih => simp [h k (by simp), ih fun l hl => h l (by simp [hl])]

/-- The Encoder's parity of a check over a codeword, as the XOR of data bits (R47). -/
theorem encoderParity_encode (data : BitSeq) (i : Nat) :
    encoderParity (encode data) i =
      parity data ((positions data.length).filter fun k => (dataPos k).testBit i) := by
  rw [encoderParity_eq_parity_dataPositions, length_encode, ← nOf, dataPositions_nOf, List.filter_map]
  refine parity_map fun k hk => ?_
  obtain ⟨hone, hle⟩ := mem_positions.mp (List.mem_of_mem_filter hk)
  exact bitAt_encode_dataPos hone hle

/-- The bit at a parity position is what the Decoder finds for the check and what the Encoder computes for it. -/
theorem bitAt_parityPos {c : BitSeq} {i : Nat} (h : parityPos i ≤ c.length) :
    bitAt c (parityPos i) = (decoderParity c i ^^ encoderParity c i) := by
  rw [decoderParity_eq_bitAt_xor_encoderParity h, Bool.xor_assoc, Bool.xor_self, Bool.xor_false]

/-- The parity bits of a codeword are the parities of the rest of their covering sets (R47). -/
theorem bitAt_encode_parityPos {data : BitSeq} {i : Nat} (h : i < rEnc data.length) :
    bitAt (encode data) (parityPos i) = encoderParity (encode data) i := by
  have hlength : parityPos i ≤ nOf data.length := lt_rDec_iff.mp (by rwa [rDec_nOf])
  rw [bitAt_parityPos (by simpa [nOf] using hlength), decoderParity_encode h, Bool.false_xor]

/-- Settles O21: data bits are read back at their positions, parity bits are the parities of the rest of their
covering sets, which are data positions, and step 4 does not depend on the order. -/
theorem codewordPositionByPosition : Obligations.CodewordPositionByPosition := by
  refine fun data => ⟨length_encode data, fun k => bitAt_encode_dataPos, fun i hi => ?_,
    fun i => bitAt_encode_parityPos, fun checks => storeParities_perm _⟩
  exact (bitAt_encode_parityPos hi).trans (encoderParity_encode data i)

theorem decodeAndCorrect_of_syndrome_eq_zero {code : BitSeq} (h : syndrome code = 0) :
    decodeAndCorrect code = .noError := by
  obtain ⟨-, hd⟩ | ⟨hpos, -, -⟩ | ⟨hlt, -⟩ := decodeAndCorrect_cases code
  · exact hd
  · omega
  · omega

/-- The Decoder finds no error in a codeword (R49). -/
@[simp] theorem decodeAndCorrect_encode (data : BitSeq) : decodeAndCorrect (encode data) = .noError :=
  decodeAndCorrect_of_syndrome_eq_zero (syndrome_encode data)

/-- Settles O23: step 4 made every check even, so no check sets its bit of the syndrome. -/
theorem encodedWordHasSyndromeZero : Obligations.EncodedWordHasSyndromeZero := fun data =>
  ⟨fun _ => decoderParity_encode, syndrome_encode data, decodeAndCorrect_encode data⟩

/-- What the walk of step 3 placed reads back as the data (R50). -/
theorem extractData_placeData (data : BitSeq) :
    extractData (placeData (positions (nOf data.length)) data) = data := by
  have hplaced := map_bitAt_placeData (n := nOf data.length) (data := data) (by simp)
  rw [length_dataPositions_nOf, List.take_length] at hplaced
  rwa [extractData, length_placeData, length_positions]

/-- Settles O24: an encoded length has as many parity positions as the Encoder has checks. -/
theorem walkPlacesEveryDataBitOnce : Obligations.WalkPlacesEveryDataBitOnce := by
  refine ⟨fun m => ⟨?_, length_dataPositions_nOf m⟩, extractData_placeData⟩
  rw [parityPositions_eq_map_parityPos, rDec_nOf]
  rfl

/-- Settles O25: the positions that are not extracted are the parity positions. -/
theorem extractionRecoversTheData : Obligations.ExtractionRecoversTheData := by
  refine ⟨extractData_encode, fun c => ?_⟩
  have hsplit := length_parityPositions_add_length_dataPositions c.length
  rw [extractData, List.length_map]
  omega

/-! ### Linearity -/

/-- A sequence is fixed by its length, its syndrome and its data bits: the syndrome tells each check's parity, and
with the data bits of the check that tells its parity bit. -/
theorem eq_of_extractData_eq {c d : BitSeq} (hlength : c.length = d.length) (hsyndrome : syndrome c = syndrome d)
    (hdata : extractData c = extractData d) : c = d := by
  rw [extractData, extractData, ← hlength, List.map_inj_left] at hdata
  refine ext_bitAt hlength fun j hone hle => ?_
  by_cases hj : isPowerOfTwo (j : Int) = true
  · obtain ⟨i, rfl⟩ := (isPowerOfTwo_natCast_iff j).mp hj
    have hdecoder : decoderParity c i = decoderParity d i := by
      have hbit := congrArg (fun s => s.testBit i) hsyndrome
      simpa [testBit_syndrome, lt_rDec_iff, hle, hlength ▸ hle] using hbit
    have hencoder : encoderParity c i = encoderParity d i := by
      rw [encoderParity_eq_parity_dataPositions, encoderParity_eq_parity_dataPositions, ← hlength]
      exact parity_congr fun k hk => hdata k (List.mem_of_mem_filter hk)
    rw [← parityPos, bitAt_parityPos hle, bitAt_parityPos (hlength ▸ hle), hdecoder, hencoder]
  · exact hdata j (mem_dataPositions.mpr ⟨⟨hone, hle⟩, by simpa using hj⟩)

section Xor

variable {c d : BitSeq} (h : c.length = d.length)
include h

theorem length_zipWith_xor : (List.zipWith xor c d).length = c.length := by simp [h]

theorem bitAt_zipWith_xor (j : Nat) : bitAt (List.zipWith xor c d) j = (bitAt c j ^^ bitAt d j) := by
  cases j with
  | zero => rfl
  | succ k =>
    by_cases hk : k < d.length <;> simp [bitAt_succ, hk, h]

theorem parity_zipWith_xor (set : List Nat) :
    parity (List.zipWith xor c d) set = (parity c set ^^ parity d set) := by
  induction set with
  | nil => rfl
  | cons j js ih =>
    rw [parity_cons, parity_cons, parity_cons, ih, bitAt_zipWith_xor h, Bool.xor_assoc, Bool.xor_assoc,
      Bool.xor_left_comm (bitAt d j)]

theorem syndrome_zipWith_xor : syndrome (List.zipWith xor c d) = syndrome c ^^^ syndrome d := by
  refine Nat.eq_of_testBit_eq fun i => ?_
  simp only [Nat.testBit_xor, testBit_syndrome, decoderParity, length_zipWith_xor h, ← h, parity_zipWith_xor h]
  exact Bool.and_xor_distrib_left ..

theorem extractData_zipWith_xor :
    extractData (List.zipWith xor c d) = List.zipWith xor (extractData c) (extractData d) := by
  rw [extractData, extractData, extractData, length_zipWith_xor h, ← h, List.zipWith_map, List.zipWith_self]
  exact List.map_congr_left fun j _ => bitAt_zipWith_xor h j

/-- The XOR of two codewords of one length is the codeword of the XOR of their data: both have syndrome 0 and the
same data bits (after R51). -/
theorem encode_zipWith_xor : encode (List.zipWith xor c d) = List.zipWith xor (encode c) (encode d) := by
  have hcodewords : (encode c).length = (encode d).length := by rw [length_encode, length_encode, h]
  refine eq_of_extractData_eq ?_ ?_ ?_
  · rw [length_encode, length_zipWith_xor h, length_zipWith_xor hcodewords, length_encode]
  · rw [syndrome_encode, syndrome_zipWith_xor hcodewords, syndrome_encode, syndrome_encode, Nat.xor_self]
  · rw [extractData_encode, extractData_zipWith_xor hcodewords, extractData_encode, extractData_encode]

end Xor

/-- Extracting is a left inverse of encoding. -/
theorem encode_injective : Function.Injective encode := Function.LeftInverse.injective extractData_encode

/-- Settles O26: codewords are added like their data, and their data can be extracted again. -/
theorem encodeIsLinearAndInjective : Obligations.EncodeIsLinearAndInjective :=
  fun _ _ h => ⟨encode_zipWith_xor h, fun heq => encode_injective heq⟩

/-- All-zero data is the XOR of itself with itself, so its codeword is too, and is all zero (R48). -/
theorem encode_replicate_false (m : Nat) : encode (List.replicate m false) = List.replicate (nOf m) false := by
  have hxor := encode_zipWith_xor (c := List.replicate m false) (d := List.replicate m false) rfl
  rw [List.zipWith_self, List.map_replicate, Bool.xor_self, List.zipWith_self] at hxor
  simp only [Bool.xor_self, List.map_const', length_encode, List.length_replicate] at hxor
  exact hxor

/-! ### Distance -/

/-- The positions where two sequences of length `n` differ. -/
def differing (n : Nat) (c d : BitSeq) : List Nat := (positions n).filter fun j => bitAt c j != bitAt d j

theorem mem_differing {n j : Nat} {c d : BitSeq} :
    j ∈ differing n c d ↔ (1 ≤ j ∧ j ≤ n) ∧ bitAt c j ≠ bitAt d j := by
  simp [differing]

theorem nodup_differing (n : Nat) (c d : BitSeq) : (differing n c d).Nodup := (nodup_positions n).filter _

/-- Flips at different positions of the sequence complement the bits there and no others. -/
theorem bitAt_foldl_flip {c : BitSeq} {ps : List Nat} (hps : ∀ p ∈ ps, 1 ≤ p ∧ p ≤ c.length) (hn : ps.Nodup)
    (j : Nat) : bitAt (ps.foldl flip c) j = (decide (j ∈ ps) ^^ bitAt c j) := by
  induction ps generalizing c with
  | nil => simp
  | cons p ps ih =>
    obtain ⟨hp, hn⟩ := List.nodup_cons.mp hn
    obtain ⟨h₁, h₂⟩ := hps p (by simp)
    rw [List.foldl_cons, ih (fun q hq => by simpa using hps q (by simp [hq])) hn, bitAt_flip]
    by_cases hj : j = p
    · subst hj; simp [hp, h₁, h₂]
    · simp [hj]

@[simp] theorem length_foldl_flip (c : BitSeq) (ps : List Nat) : (ps.foldl flip c).length = c.length := by
  induction ps generalizing c with
  | nil => rfl
  | cons p ps ih => rw [List.foldl_cons, ih, length_flip]

/-- Each flip changes the syndrome by its position. -/
theorem syndrome_foldl_flip {c : BitSeq} {ps : List Nat} (hps : ∀ p ∈ ps, 1 ≤ p ∧ p ≤ c.length) :
    syndrome (ps.foldl flip c) = ps.foldl (· ^^^ ·) (syndrome c) := by
  induction ps generalizing c with
  | nil => rfl
  | cons p ps ih =>
    obtain ⟨h₁, h₂⟩ := hps p (by simp)
    rw [List.foldl_cons, ih (fun q hq => by simpa using hps q (by simp [hq])), syndrome_flip h₁ h₂, List.foldl_cons]

/-- Flipping where two sequences differ turns one into the other. -/
theorem foldl_flip_differing {c d : BitSeq} (h : c.length = d.length) :
    (differing c.length c d).foldl flip c = d := by
  refine ext_bitAt (by rw [length_foldl_flip, h]) fun j hone hle => ?_
  rw [length_foldl_flip] at hle
  rw [bitAt_foldl_flip (fun p hp => (mem_differing.mp hp).1) (nodup_differing ..)]
  by_cases hj : bitAt c j = bitAt d j
  · simp [mem_differing, hj]
  · simp [mem_differing, hone, hle, Bool.eq_not_of_ne hj]

/-- Two different sequences of one length and one syndrome differ in at least three positions: one position is not
0, and two positions whose XOR is 0 are the same. -/
theorem three_le_length_differing {c d : BitSeq} (h : c.length = d.length) (hsyndrome : syndrome c = syndrome d)
    (hne : c ≠ d) : 3 ≤ (differing c.length c d).length := by
  have hflip := foldl_flip_differing h
  have hnodup := nodup_differing c.length c d
  have hpositions : ∀ p ∈ differing c.length c d, 1 ≤ p ∧ p ≤ c.length := fun p hp => (mem_differing.mp hp).1
  have hxor := syndrome_foldl_flip hpositions
  rw [hflip, ← hsyndrome, eq_comm] at hxor
  match hps : differing c.length c d with
  | [] => exact absurd (by simpa [hps] using hflip) hne
  | [p] =>
    have hone : 1 ≤ p := (hpositions p (by simp [hps])).1
    have hzero : p = 0 := by simpa [hps] using hxor
    omega
  | [p, q] =>
    have heq : p = q := by simpa [hps, Nat.xor_assoc] using hxor
    simp [hps, heq] at hnodup
  | _ :: _ :: _ :: _ => simp

/-- Settles O27: codewords all have syndrome 0, and different data have different codewords. -/
theorem codewordsDifferInThreePositions : Obligations.CodewordsDifferInThreePositions := by
  intro d e hlength hne
  have h := three_le_length_differing (c := encode d) (d := encode e) (by simp [hlength]) (by simp)
    (encode_injective.ne hne)
  rwa [length_encode] at h

/-- A flip of a position is a flip of its bit in the field (R23). -/
theorem vec_flip {c : BitSeq} {p : Nat} (h₁ : 1 ≤ p) (h₂ : p ≤ c.length) :
    vec (flip c p) = vec c ^^^ 2 ^ (p - 1) := by
  obtain ⟨p, rfl⟩ := Nat.exists_eq_add_of_le' h₁
  refine Nat.eq_of_testBit_eq fun k => ?_
  rw [Nat.testBit_xor, testBit_vec, testBit_vec, bitAt_flip, Nat.testBit_two_pow, Nat.add_sub_cancel]
  by_cases hk : k = p
  · simp [hk, h₂]
  · simp [hk, Ne.symm hk]

theorem length_encode_seq (din m : Nat) : (encode (seq din m)).length = nOf m := by
  rw [length_encode, length_seq, nOf]

/-- The field that holds a codeword unpacks to the codeword. -/
theorem seq_vec_encode_seq (din m : Nat) : seq (vec (encode (seq din m))) (nOf m) = encode (seq din m) := by
  rw [← length_encode_seq din m, seq_vec]

/-- The field that holds a codeword, with one bit flipped, unpacks to the codeword with that position flipped. -/
theorem seq_vec_encode_seq_xor {din m p : Nat} (h₁ : 1 ≤ p) (h₂ : p ≤ nOf m) :
    seq (vec (encode (seq din m)) ^^^ 2 ^ (p - 1)) (nOf m) = flip (encode (seq din m)) p := by
  rw [← length_encode_seq din m] at h₂ ⊢
  rw [← vec_flip h₁ h₂, ← length_flip _ p, seq_vec]

end Sys2Proof.Hamming

/-! ### The Encoder and the Decoder on the ports -/

namespace Sys2Proof.Machine

/-- Settles O22: the capacity check settles which answer is given, nothing of a served codeword is cut, and all-zero
data is the case of linearity; the other corner cases by evaluation. -/
theorem encodeAnswersTheCodeword : Obligations.EncodeAnswersTheCodeword := by
  refine ⟨fun s m din hv => ⟨execEncode_of_fits hv din, execEncode_of_capacity_lt, ?_, ?_, fun b => rfl⟩,
    fun f => rfl, rfl, by decide, Hamming.encode_replicate_false, by decide, by decide⟩
  · rw [← not_le, ← not_le, Hamming.le_mMax_iff hv.1, Hamming.nOf]
  · exact congrFun (execEncode_congr fun k hk => by simp [hk]) s

/-- What `DECODE` answers when the Decoder finds no error (R56). -/
theorem execDecode_of_noError {s : State} {n din : Nat} (hn : n ≤ s.inst.N_MAX)
    (h : Hamming.decodeAndCorrect (Hamming.seq din n) = .noError) :
    execDecode n din s = .next { s with rsp := ⟨.ok, 0, 0⟩ } := by
  rw [execDecode, if_neg (not_lt.mpr hn), h]
  exact s.respond_of_fits _ (by positivity) (by positivity)

/-- The state after a step on a served `ENCODE` request, whatever its field `b` holds. -/
theorem eq_of_step_present_encode {s t : State} {m din b : Nat} (hv : s.inst.Valid)
    (hn : Hamming.nOf m ≤ s.inst.N_MAX) (h : step (s.present ⟨2#3, m, b, din⟩) = .next t) :
    t = { s.present ⟨2#3, m, b, din⟩ with
      rsp := ⟨.ok, Hamming.nOf m, Hamming.vec (Hamming.encode (Hamming.seq din m))⟩ } := by
  have hexec := execEncode_of_fits (s := s.present ⟨2#3, m, b, din⟩) hv din hn
  exact (Host.Outcome.next.inj (hexec.symm.trans h)).symm

/-- Settles O34: the flipped field holds the codeword with the position flipped, which the Corrector corrects. -/
theorem singleFlipIsCorrectedOnThePorts : Obligations.SingleFlipIsCorrectedOnThePorts := by
  intro s t m din b b' p hv hn hstep h₁ h₂
  obtain rfl := eq_of_step_present_encode hv hn hstep
  have hcorrected := Hamming.decodeAndCorrect_flip_encode (data := Hamming.seq din m) h₁
    (by rw [Hamming.length_seq]; exact h₂)
  rw [← Hamming.seq_vec_encode_seq_xor h₁ h₂] at hcorrected
  exact execDecode_of_corrected (s := State.present _ _) hv hn h₂ (Hamming.length_encode_seq din m) hcorrected

/-- Settles O35: the field of the response holds the codeword, in which the Decoder finds no error and the host its
data. -/
theorem roundTripOnThePorts : Obligations.RoundTripOnThePorts := by
  intro s t m din b b' hv hn hstep
  obtain rfl := eq_of_step_present_encode hv hn hstep
  have hnoError := Hamming.decodeAndCorrect_encode (Hamming.seq din m)
  rw [← Hamming.seq_vec_encode_seq] at hnoError
  refine ⟨execDecode_of_noError (s := State.present _ _) hn hnoError, (Hamming.nOf_sub_rDec_nOf m).symm, ?_⟩
  rw [Hamming.seq_vec_encode_seq, Hamming.extractData_encode]

end Sys2Proof.Machine

/-! ### The Decoder/Corrector on any sequence -/

namespace Sys2Proof.Hamming

@[simp] theorem bitAt_replicate_false (n j : Nat) : bitAt (List.replicate n false) j = false := by
  cases j with
  | zero => rfl
  | succ k => by_cases hk : k < n <;> simp [bitAt_succ, hk]

/-- The all-zero sequence is the XOR of any sequence of its length with itself, and so is its syndrome. -/
@[simp] theorem syndrome_replicate_false (n : Nat) : syndrome (List.replicate n false) = 0 := by
  have hxor := syndrome_zipWith_xor (c := List.replicate n false) (d := List.replicate n false) rfl
  rwa [List.zipWith_self, List.map_replicate, Bool.xor_self, Nat.xor_self] at hxor

/-- Each position where two sequences of one length differ is a term of the difference of their syndromes. -/
theorem syndrome_eq_foldl_xor_differing {c d : BitSeq} (h : c.length = d.length) :
    syndrome d = (differing c.length c d).foldl (· ^^^ ·) (syndrome c) := by
  have hpositions : ∀ p ∈ differing c.length c d, 1 ≤ p ∧ p ≤ c.length := fun p hp => (mem_differing.mp hp).1
  rw [← syndrome_foldl_flip hpositions, foldl_flip_differing h]

/-- A sequence differs from the all-zero one, which has syndrome 0, at the positions that hold a 1 (R52). -/
theorem syndrome_eq_foldl_xor (code : BitSeq) :
    syndrome code = ((positions code.length).filter fun j => bitAt code j).foldl (fun x j => x ^^^ j) 0 := by
  have hones : differing code.length (List.replicate code.length false) code =
      (positions code.length).filter fun j => bitAt code j :=
    List.filter_congr fun j _ => by rw [bitAt_replicate_false, Bool.false_bne]
  have hxor := syndrome_eq_foldl_xor_differing (c := List.replicate code.length false) List.length_replicate
  rwa [List.length_replicate, hones, syndrome_replicate_false] at hxor

/-- Settles O29: the checks are the bits of the syndrome, and the flips that make the sequence are its terms. -/
theorem syndromeIsXorOfSetPositions : Obligations.SyndromeIsXorOfSetPositions :=
  ⟨testBit_syndrome, fun code => Nat.le_sub_one_of_lt (syndrome_lt_two_pow_rDec code), syndrome_eq_foldl_xor,
    syndrome_replicate_false, fun code _ => syndromeOver_perm code⟩

/-- The one case analysis on a class (R53). -/
theorem classify_cases (s n : Nat) :
    (s = 0 ∧ classify s n = .noError) ∨ (0 < s ∧ s ≤ n ∧ classify s n = .correctable) ∨
    (n < s ∧ classify s n = .uncorrectable) := by
  rw [classify]
  by_cases hzero : s = 0
  · exact .inl ⟨hzero, if_pos hzero⟩
  · by_cases hle : s ≤ n
    · exact .inr (.inl ⟨Nat.pos_of_ne_zero hzero, hle, by rw [if_neg hzero, if_pos hle]⟩)
    · exact .inr (.inr ⟨not_le.mp hle, by rw [if_neg hzero, if_neg hle]⟩)

/-- Which syndromes are in which class (R53). -/
theorem classify_eq_iff (s n : Nat) :
    (classify s n = .noError ↔ s = 0) ∧ (classify s n = .correctable ↔ 0 < s ∧ s ≤ n) ∧
      (classify s n = .uncorrectable ↔ n < s) := by
  obtain ⟨hs, h⟩ | ⟨hs, hle, h⟩ | ⟨hlt, h⟩ := classify_cases s n <;> simp [h] <;> omega

/-- A length of the form `2^r - 1` has at most `r` checks, whose syndromes are all within it. -/
theorem length_ne_two_pow_sub_one_of_length_lt {code : BitSeq} (h : code.length < syndrome code) (r : Nat) :
    code.length ≠ 2 ^ r - 1 := by
  intro hlength
  have hpos : 0 < 2 ^ r := by positivity
  have hsyndrome : syndrome code < 2 ^ r := syndrome_lt_two_pow (by omega)
  omega

/-- Settles O30: a syndrome has `rDec(n)` bits, so it is above the length only when the length is below the largest
number of that many bits. -/
theorem syndromeClassesPartition : Obligations.SyndromeClassesPartition := by
  refine ⟨classify_eq_iff, fun code h => ?_⟩
  obtain ⟨-, -, huncorrectable⟩ := classify_eq_iff (syndrome code) code.length
  have hlt : code.length < syndrome code := huncorrectable.mp h
  exact ⟨Nat.lt_of_le_of_lt hlt (syndrome_lt_two_pow_rDec code), length_ne_two_pow_sub_one_of_length_lt hlt⟩

theorem decodeAndCorrect_of_syndrome_le {code : BitSeq} (hpos : 0 < syndrome code)
    (hle : syndrome code ≤ code.length) :
    decodeAndCorrect code = .corrected (syndrome code) (flip code (syndrome code)) := by
  obtain ⟨hzero, -⟩ | ⟨-, -, h⟩ | ⟨hlt, -⟩ := decodeAndCorrect_cases code
  · omega
  · exact h
  · omega

theorem decodeAndCorrect_of_length_lt {code : BitSeq} (hlt : code.length < syndrome code) :
    decodeAndCorrect code = .uncorrectable (syndrome code) := by
  obtain ⟨hzero, -⟩ | ⟨-, hle, -⟩ | ⟨-, h⟩ := decodeAndCorrect_cases code
  · omega
  · omega
  · exact h

theorem decodeAndCorrect_eq_noError_iff {code : BitSeq} : decodeAndCorrect code = .noError ↔ syndrome code = 0 := by
  obtain ⟨hzero, h⟩ | ⟨hpos, -, h⟩ | ⟨hlt, h⟩ := decodeAndCorrect_cases code
  · exact iff_of_true h hzero
  · exact iff_of_false (h ▸ nofun) hpos.ne'
  · exact iff_of_false (h ▸ nofun) (Nat.ne_zero_of_lt hlt)

/-- The flip the Corrector makes takes the syndrome away (R54). -/
theorem syndrome_flip_syndrome {code : BitSeq} (hpos : 0 < syndrome code) (hle : syndrome code ≤ code.length) :
    syndrome (flip code (syndrome code)) = 0 := by
  rw [syndrome_flip hpos hle, Nat.xor_self]

/-- Settles O31: the corrected codeword is the sequence with the named bit flipped. -/
theorem correctorFlipsTheNamedBit : Obligations.CorrectorFlipsTheNamedBit := by
  refine fun code => ⟨fun hpos hle => ?_, decodeAndCorrect_of_syndrome_eq_zero, decodeAndCorrect_of_length_lt⟩
  refine ⟨_, decodeAndCorrect_of_syndrome_le hpos hle, length_flip .., ?_, fun j hj => ?_,
    syndrome_flip_syndrome hpos hle⟩
  · rw [bitAt_flip, if_pos ⟨rfl, hpos, hle⟩]
  · rw [bitAt_flip, if_neg fun h => hj h.1]

/-- Settles O33: the syndrome of the flipped codeword is the position, and the Corrector flips it back. -/
theorem everySingleFlipIsCorrected : Obligations.EverySingleFlipIsCorrected :=
  fun _ _ h₁ h₂ => decodeAndCorrect_flip_encode h₁ (h₂.trans_eq (length_encode _))

/-! ### Two flips and three -/

/-- Flips at different positions of a sequence change it at these positions and no others. -/
theorem length_differing_foldl_flip {c : BitSeq} {ps : List Nat} (hps : ∀ p ∈ ps, 1 ≤ p ∧ p ≤ c.length)
    (hn : ps.Nodup) : (differing c.length (ps.foldl flip c) c).length = ps.length := by
  refine ((List.perm_ext_iff_of_nodup (nodup_differing ..) hn).mpr fun j => ?_).length_eq
  rw [mem_differing, bitAt_foldl_flip hps hn]
  by_cases hj : j ∈ ps
  · simp [hj, hps j hj]
  · simp [hj]

/-- Two flips of a codeword give the syndrome `p XOR q` (R58). -/
theorem syndrome_flip_flip_encode {data : BitSeq} {p q : Nat} (hp₁ : 1 ≤ p) (hp₂ : p ≤ (encode data).length)
    (hq₁ : 1 ≤ q) (hq₂ : q ≤ (encode data).length) :
    syndrome (flip (flip (encode data) p) q) = p ^^^ q := by
  rw [syndrome_flip hq₁ (by rwa [length_flip]), syndrome_flip hp₁ hp₂, syndrome_encode, Nat.zero_xor]

/-- A correction after two flips is a third flip elsewhere: `p XOR q` is neither `p` nor `q` (R58). -/
theorem length_differing_three_flips {c : BitSeq} {p q : Nat} (hp₁ : 1 ≤ p) (hp₂ : p ≤ c.length) (hq₁ : 1 ≤ q)
    (hq₂ : q ≤ c.length) (hne : p ≠ q) (hle : p ^^^ q ≤ c.length) :
    (differing c.length (flip (flip (flip c p) q) (p ^^^ q)) c).length = 3 := by
  have hpos : 1 ≤ p ^^^ q := Nat.pos_of_ne_zero (Nat.xor_ne_zero_iff.mpr hne)
  have hp : p ≠ p ^^^ q := fun h => Nat.ne_of_gt hq₁ (xor_left_eq_self_iff.mp h.symm)
  have hq : q ≠ p ^^^ q := fun h => Nat.ne_of_gt hp₁ (xor_right_eq_self_iff.mp h.symm)
  exact length_differing_foldl_flip (ps := [p, q, p ^^^ q]) (by simp [hp₁, hp₂, hq₁, hq₂, hpos, hle])
    (by simp [hne, hp, hq])

/-- Settles O36: `p XOR q` of different positions is not 0; a correction is a third flip; the outcomes of three
flips by evaluation. -/
theorem doubleFlipsAreNeverSeenAsNoError : Obligations.DoubleFlipsAreNeverSeenAsNoError := by
  refine ⟨fun data p q hp₁ hp₂ hq₁ hq₂ hne => ?_, ⟨[true], by decide, rfl⟩,
    ⟨[true, true, true, true], 7, _, by decide, rfl⟩, ⟨[true, true], 7, by decide, rfl⟩⟩
  have hsyndrome := syndrome_flip_flip_encode hp₁ hp₂ hq₁ hq₂
  have hxor : p ^^^ q ≠ 0 := Nat.xor_ne_zero_iff.mpr hne
  have hlength : (flip (flip (encode data) p) q).length = (encode data).length := by
    rw [length_flip, length_flip]
  have hnonzero : syndrome (flip (flip (encode data) p) q) ≠ 0 := hsyndrome ▸ hxor
  refine ⟨hsyndrome, hxor, decodeAndCorrect_eq_noError_iff.not.mpr hnonzero, fun hle => ?_, fun hlt => ?_⟩
  · have h := decodeAndCorrect_of_syndrome_le (Nat.pos_of_ne_zero hnonzero) (by rwa [hsyndrome, hlength])
    rw [hsyndrome] at h
    refine ⟨_, h, ?_⟩
    rw [length_flip, hlength]
    exact length_differing_three_flips hp₁ hp₂ hq₁ hq₂ hne hle
  · rw [decodeAndCorrect_of_length_lt (by rwa [hsyndrome, hlength]), hsyndrome]

end Sys2Proof.Hamming

/-! ### `DECODE` on the ports -/

namespace Sys2Proof.Machine

/-- What `DECODE` answers with valid parameters when the syndrome names no position: it is not cut (R56). -/
theorem execDecode_of_length_lt {s : State} (hv : s.inst.Valid) {n din : Nat} (hn : n ≤ s.inst.N_MAX)
    (h : n < Hamming.syndrome (Hamming.seq din n)) :
    execDecode n din s = .next { s with rsp := ⟨.uncorrectable, Hamming.syndrome (Hamming.seq din n), 0⟩ } := by
  rw [execDecode, if_neg (not_lt.mpr hn), Hamming.decodeAndCorrect_of_length_lt (by rwa [Hamming.length_seq])]
  refine s.respond_of_fits _ (Hamming.syndrome_lt_two_pow ?_) (by positivity)
  rw [Hamming.length_seq]
  exact hn.trans_lt hv.2.2

/-- What `DECODE` answers with valid parameters when the syndrome names a position (R54, R56). -/
theorem execDecode_of_syndrome_le {s : State} (hv : s.inst.Valid) {n din : Nat} (hn : n ≤ s.inst.N_MAX)
    (hpos : 0 < Hamming.syndrome (Hamming.seq din n)) (hle : Hamming.syndrome (Hamming.seq din n) ≤ n) :
    execDecode n din s = .next { s with rsp := ⟨.corrected, Hamming.syndrome (Hamming.seq din n),
      Hamming.vec (Hamming.flip (Hamming.seq din n) (Hamming.syndrome (Hamming.seq din n)))⟩ } :=
  execDecode_of_corrected hv hn hle (by rw [Hamming.length_flip, Hamming.length_seq])
    (Hamming.decodeAndCorrect_of_syndrome_le hpos (by rwa [Hamming.length_seq]))

/-- Settles O32: one lemma per case of the syndrome; `seq` reads `din` below the length; the corner cases and the
scenarios by evaluation. -/
theorem decodeAnswersBySyndrome : Obligations.DecodeAnswersBySyndrome := by
  refine ⟨fun s n din hv => ⟨execDecode_of_capacity_lt, fun hn hzero => ?_, execDecode_of_syndrome_le hv,
    execDecode_of_length_lt hv, ?_, fun b => rfl⟩, by decide⟩
  · exact execDecode_of_noError hn (Hamming.decodeAndCorrect_of_syndrome_eq_zero hzero)
  · exact congrFun (execDecode_congr fun k hk => by simp [hk]) s

/-- `DECODE` of `code` has a response from which the host takes the codeword `sent` (R56, R75). -/
def HostTakes (s : State) (code sent : BitSeq) : Prop :=
  ∃ r, execDecode code.length (Hamming.vec code) s = .next { s with rsp := r } ∧ receive code r = some sent

/-- A codeword that arrives unchanged: `DECODE` answers `NOERR`, and the host keeps its own copy (R49, R56). -/
theorem hostTakes_encode {s : State} {bits : BitSeq} (hn : (Hamming.encode bits).length ≤ s.inst.N_MAX) :
    HostTakes s (Hamming.encode bits) (Hamming.encode bits) := by
  have hnoError := Hamming.decodeAndCorrect_encode bits
  rw [← Hamming.seq_vec (Hamming.encode bits)] at hnoError
  exact ⟨_, execDecode_of_noError hn hnoError, rfl⟩

/-- A codeword with one bit flipped: `DECODE` answers `CORRECTED`, and the host takes `dout` (R56, R57). -/
theorem hostTakes_flip_encode {s : State} {bits : BitSeq} {p : Nat} (hv : s.inst.Valid)
    (hn : (Hamming.encode bits).length ≤ s.inst.N_MAX) (h₁ : 1 ≤ p) (h₂ : p ≤ (Hamming.encode bits).length) :
    HostTakes s (Hamming.flip (Hamming.encode bits) p) (Hamming.encode bits) := by
  have hlength := Hamming.length_flip (Hamming.encode bits) p
  have hcorrected := Hamming.everySingleFlipIsCorrected bits p h₁ h₂
  rw [← Hamming.seq_vec (Hamming.flip (Hamming.encode bits) p)] at hcorrected
  rw [← hlength] at hn h₂
  refine ⟨_, execDecode_of_corrected hv hn h₂ hlength.symm hcorrected, ?_⟩
  rw [receive, hlength, Hamming.seq_vec]

/-- Settles O58: a step on the request of a `DECODE` line runs `execDecode` on the line's bits, which differ from the
codeword in at most one. -/
theorem hostReceivesTheCodewordSent : Obligations.HostReceivesTheCodewordSent := by
  intro s bits code hv hbits hcode
  have hlength : (Hamming.encode bits).length = Hamming.nOf bits.length := Hamming.length_encode bits
  have hn : (Hamming.encode bits).length ≤ s.inst.N_MAX := hlength ▸ Hamming.nOf_le_of_le_mMax hv.1 hbits
  obtain rfl | ⟨p, h₁, h₂, rfl⟩ := hcode
  · exact hostTakes_encode (s := s.present _) hn
  · exact hostTakes_flip_encode (s := s.present _) hv hn h₁ (hlength ▸ h₂)

end Sys2Proof.Machine

/-! ### Covering sets -/

namespace Sys2Proof.Hamming

/-- Of the parity positions a check covers its own alone, where the length reaches it (R60). -/
theorem two_pow_mem_coveredPositions_iff {i k n : Nat} : 2 ^ k ∈ coveredPositions i n ↔ 2 ^ k ≤ n ∧ k = i := by
  rw [mem_coveredPositions, and_iff_right Nat.one_le_two_pow, Nat.testBit_two_pow, decide_eq_true_eq]

/-- A number below `2^i` has no bit `i`, so a check covers no position below its parity position. -/
theorem two_pow_le_of_mem_coveredPositions {i n j : Nat} (h : j ∈ coveredPositions i n) : 2 ^ i ≤ j :=
  Nat.ge_two_pow_of_testBit (mem_coveredPositions.mp h).2

theorem coveredPositions_eq_nil_iff {i n : Nat} : coveredPositions i n = [] ↔ n < 2 ^ i := by
  rw [List.eq_nil_iff_forall_not_mem]
  constructor
  · intro hempty
    by_contra hle
    exact hempty (2 ^ i) (two_pow_mem_coveredPositions_iff.mpr ⟨not_lt.mp hle, rfl⟩)
  · intro hlt j hj
    have hle : j ≤ n := (mem_coveredPositions.mp hj).1.2
    exact absurd ((two_pow_le_of_mem_coveredPositions hj).trans hle) (not_le.mpr hlt)

/-- The first position a check covers is its parity position, if the length reaches it (R59). -/
theorem head?_coveredPositions (i n : Nat) :
    (coveredPositions i n).head? = if 2 ^ i ≤ n then some (2 ^ i) else none := by
  split
  case isTrue hle =>
    have hmem : 2 ^ i ∈ positions n := mem_positions.mpr ⟨Nat.one_le_two_pow, hle⟩
    rw [coveredPositions_eq, List.head?_filter, positions, List.find?_range'_eq_some]
    exact ⟨Nat.testBit_two_pow_self, hmem, fun j _ hj => by rw [Nat.testBit_lt_two_pow hj]; rfl⟩
  case isFalse hlt => rw [coveredPositions_eq_nil_iff.mpr (not_le.mp hlt), List.head?_nil]

/-- Settles O37: a check runs exactly when its parity position lies in the codeword, and it covers none below it. -/
theorem parityPositionsOfALength : Obligations.ParityPositionsOfALength :=
  ⟨fun _ => rfl, fun n => ⟨parityPositions_eq_map_parityPos n, length_parityPositions n⟩, head?_coveredPositions⟩

/-- Every position has a bit set, and the check of that bit is one the Decoder runs (R60). -/
theorem exists_mem_coveredPositions {n j : Nat} (h₁ : 1 ≤ j) (h₂ : j ≤ n) :
    ∃ i, i < rDec n ∧ j ∈ coveredPositions i n := by
  obtain ⟨i, hi⟩ := Nat.exists_testBit_of_ne_zero (Nat.ne_zero_of_lt h₁)
  exact ⟨i, lt_rDec_iff.mpr ((Nat.ge_two_pow_of_testBit hi).trans h₂), mem_coveredPositions.mpr ⟨⟨h₁, h₂⟩, hi⟩⟩

/-- A number with bit `i` set that is not `2^i` has another bit set. -/
theorem exists_ne_testBit_of_ne_two_pow {i j : Nat} (hi : j.testBit i = true) (hne : j ≠ 2 ^ i) :
    ∃ k, k ≠ i ∧ j.testBit k = true := by
  obtain ⟨k, hk⟩ := Nat.exists_testBit_ne_of_ne hne
  have hki : k ≠ i := by
    rintro rfl
    exact hk (hi.trans Nat.testBit_two_pow_self.symm)
  rw [Nat.testBit_two_pow_of_ne hki.symm, ne_eq, Bool.not_eq_false] at hk
  exact ⟨k, hki, hk⟩

/-- A data position has two different bits set, and so two checks that cover it (R60). -/
theorem exists_two_checks_of_not_isPowerOfTwo {n j : Nat} (h₁ : 1 ≤ j) (h₂ : j ≤ n)
    (hdata : isPowerOfTwo (j : Int) = false) :
    ∃ i k, i < k ∧ j ∈ coveredPositions i n ∧ j ∈ coveredPositions k n := by
  obtain ⟨i, -, hi⟩ := exists_mem_coveredPositions h₁ h₂
  have hne : j ≠ 2 ^ i := fun h => Bool.false_ne_true (hdata.symm.trans ((isPowerOfTwo_natCast_iff j).mpr ⟨i, h⟩))
  obtain ⟨k, hki, hbit⟩ := exists_ne_testBit_of_ne_two_pow (mem_coveredPositions.mp hi).2 hne
  have hk : j ∈ coveredPositions k n := mem_coveredPositions.mpr ⟨⟨h₁, h₂⟩, hbit⟩
  rcases Nat.lt_or_gt_of_ne hki with hlt | hlt
  · exact ⟨k, i, hlt, hk, hi⟩
  · exact ⟨i, k, hlt, hi, hk⟩

/-- Settles O38: the checks that cover a position are the bits set in it, one for a power of two and two or more for
any other; the Encoder and the Decoder use the sets by definition. -/
theorem coveringSetsAreExact : Obligations.CoveringSetsAreExact := by
  refine ⟨fun i n j => mem_coveredPositions, fun i n => ?_, fun i n => coveredPositions_eq_nil_iff,
    fun code i => rfl, fun c i => rfl, fun n j => exists_mem_coveredPositions, fun n k i hk => ?_,
    fun n j => exists_two_checks_of_not_isPowerOfTwo⟩
  · rw [two_pow_mem_coveredPositions_iff, and_iff_left rfl]
  · rw [two_pow_mem_coveredPositions_iff, and_iff_right hk, eq_comm]

/-- Check 0 covers the odd positions (R61). -/
theorem mem_coveredPositions_zero {n j : Nat} : j ∈ coveredPositions 0 n ↔ (1 ≤ j ∧ j ≤ n) ∧ j % 2 = 1 := by
  rw [mem_coveredPositions, Nat.testBit_zero, decide_eq_true_eq]

/-- In a codeword that ends at a parity position the check of that position covers nothing else (R61). -/
theorem coveredPositions_two_pow (k : Nat) : coveredPositions k (2 ^ k) = [2 ^ k] := by
  have hnodup : (coveredPositions k (2 ^ k)).Nodup := (nodup_positions _).filter _
  refine List.perm_singleton.mp ((List.perm_ext_iff_of_nodup hnodup (List.nodup_singleton _)).mpr fun j => ?_)
  rw [List.mem_singleton]
  constructor
  · intro hj
    exact (mem_coveredPositions.mp hj).1.2.antisymm (two_pow_le_of_mem_coveredPositions hj)
  · rintro rfl
    exact two_pow_mem_coveredPositions_iff.mpr ⟨le_rfl, rfl⟩

/-- Bit `k` of the mask of a covering set says whether the check covers position `k + 1` (R61). -/
theorem testBit_maskOf_coveredPositions (i n k : Nat) :
    (maskOf (coveredPositions i n)).testBit k = true ↔ k + 1 ∈ coveredPositions i n := by
  rw [testBit_maskOf fun j hj => (mem_coveredPositions.mp hj).1.1, decide_eq_true_eq]

theorem maskOf_coveredPositions_eq_zero {i n : Nat} (h : n < 2 ^ i) : maskOf (coveredPositions i n) = 0 := by
  rw [coveredPositions_eq_nil_iff.mpr h]
  rfl

end Sys2Proof.Hamming

/-! ### `COVER` on the ports -/

namespace Sys2Proof.Machine

/-- What a served `COVER` answers: the mask has no bit above the length, so nothing is cut (R61). -/
theorem execCover_of_served {s : State} {i n : Nat} (h : n ≤ s.inst.N_MAX) :
    execCover i n s = .next { s with rsp := ⟨.ok, 0, Hamming.maskOf (Hamming.coveredPositions i n)⟩ } := by
  rw [execCover_of_le h]
  exact s.respond_of_fits _ (by positivity) (Hamming.maskOf_coveredPositions_lt h)

/-- Settles O39: a served length is below `2^XW`, so a check index from `rDec(n)` or from `XW` on covers nothing; the
worked examples by evaluation. -/
theorem coverAnswersTheMask : Obligations.CoverAnswersTheMask := by
  refine ⟨fun s i n hv => ⟨execCover_of_capacity_lt, fun hn => ?_, fun din => rfl⟩, fun i => rfl,
    fun n j => Hamming.mem_coveredPositions_zero, Hamming.coveredPositions_two_pow, by decide⟩
  have hwidth : n < 2 ^ s.inst.XW := hn.trans_lt hv.2.2
  exact ⟨_, execCover_of_served hn, Hamming.testBit_maskOf_coveredPositions i n,
    fun hi => Hamming.maskOf_coveredPositions_eq_zero (Hamming.rDec_le_iff.mp hi),
    fun hi => Hamming.maskOf_coveredPositions_eq_zero
      (hwidth.trans_le (Nat.pow_le_pow_right Nat.two_pos hi))⟩

end Sys2Proof.Machine

/-! ### Outcomes: every request is answered, and what is answered `INVALID` -/

namespace Sys2Proof.Machine

/-- Settles O45: an instruction's outcome is the state before with another response, on whatever instance. -/
theorem everyRequestIsAnswered : Obligations.EveryRequestIsAnswered := by
  intro s
  obtain ⟨r, hr⟩ := exec_answersByInstance (decodeRequest s.req) s.inst
  exact ⟨r, hr s rfl⟩

/-- The causes of R64 on an instruction: what an instance with the parameters `p` does not serve. -/
def NotServed (p : Params) : Instr → Prop
  | .pcount _ | .ispow2 _ => False
  | .encode m _ => p.N_MAX < m + Hamming.rEnc m
  | .decode n _ | .cover _ n => p.N_MAX < n
  | .reserved5 | .reserved6 | .reserved7 => True

/-- An instruction that the instance does not serve gets the one answer of R64. -/
theorem exec_of_notServed {s : State} {i : Instr} (h : NotServed s.inst i) :
    exec i s = .next { s with rsp := ⟨.invalid, 0, 0⟩ } := by
  cases i with
  | pcount m => exact h.elim
  | ispow2 x => exact h.elim
  | encode m din => exact execEncode_of_capacity_lt h
  | decode n din => exact execDecode_of_capacity_lt h
  | cover i n => exact execCover_of_capacity_lt h
  | reserved5 => exact s.invalid_eq
  | reserved6 => exact s.invalid_eq
  | reserved7 => exact s.invalid_eq

/-- A served instruction gets an answer other than `INVALID` (R63). -/
theorem exec_of_served {s : State} {i : Instr} (h : ¬ NotServed s.inst i) :
    ∃ t, exec i s = .next t ∧ t.rsp.status ≠ .invalid := by
  cases i with
  | pcount m => exact ⟨_, rfl, Status.noConfusion⟩
  | ispow2 x => exact ⟨_, rfl, Status.noConfusion⟩
  | encode m din => exact ⟨_, execEncode_of_le (not_lt.mp h), Status.noConfusion⟩
  | decode n din => exact execDecode_serves (not_lt.mp h)
  | cover i n => exact ⟨_, execCover_of_le (not_lt.mp h), Status.noConfusion⟩
  | reserved5 => exact (h trivial).elim
  | reserved6 => exact (h trivial).elim
  | reserved7 => exact (h trivial).elim

/-- The causes (a) to (d) of R64, on the fields of the request. -/
theorem notServed_decodeRequest_iff (p : Params) (q : Request) :
    NotServed p (decodeRequest q) ↔
      5 ≤ q.op.toNat ∨ (q.op = 2#3 ∧ p.N_MAX < q.a + Hamming.rEnc q.a) ∨ (q.op = 3#3 ∧ p.N_MAX < q.a) ∨
        (q.op = 4#3 ∧ p.N_MAX < q.a) := by
  obtain ⟨hop, h⟩ | ⟨hop, h⟩ | ⟨hop, h⟩ | ⟨hop, h⟩ | ⟨hop, h⟩ | ⟨hop, h⟩ | ⟨hop, h⟩ | ⟨hop, h⟩ :=
    decodeRequest_cases q <;> simp [hop, h, NotServed]

/-- A code up to 1 is none of those R64 names. -/
theorem served_of_op_le_one {p : Params} {q : Request} (h : q.op.toNat ≤ 1) : ¬ NotServed p (decodeRequest q) := by
  rw [notServed_decodeRequest_iff]
  rintro (hreserved | ⟨hop, -⟩ | ⟨hop, -⟩ | ⟨hop, -⟩)
  · omega
  all_goals simp [hop] at h

/-- Length 0 is served: even its `ENCODE` needs one position only, and `N_MAX` is at least 1 (R6, R64). -/
theorem served_of_length_zero {p : Params} {q : Request} (hv : p.Valid) (hop : q.op.toNat ≤ 4) (ha : q.a = 0) :
    ¬ NotServed p (decodeRequest q) := by
  have hzero : q.a + Hamming.rEnc q.a = 1 := by rw [ha]; rfl
  have hcapacity : 1 ≤ p.N_MAX := hv.1
  rw [notServed_decodeRequest_iff]
  omega

/-- Settles O43: the request is not served exactly for the causes of R64, and only then is the answer `INVALID`. -/
theorem invalidHasExactlyFourCauses : Obligations.InvalidHasExactlyFourCauses := by
  intro s
  by_cases hcause : NotServed s.inst (decodeRequest s.req)
  · exact ⟨_, exec_of_notServed hcause, iff_of_true rfl ((notServed_decodeRequest_iff ..).mp hcause),
      fun _ => ⟨rfl, rfl⟩, fun hop => (served_of_op_le_one hop hcause).elim,
      fun hv hop ha => (served_of_length_zero hv hop ha hcause).elim⟩
  · obtain ⟨t, hstep, hstatus⟩ := exec_of_served hcause
    exact ⟨t, hstep, iff_of_false hstatus ((notServed_decodeRequest_iff ..).not.mp hcause),
      fun h => (hstatus h).elim, fun _ => hstatus, fun _ _ _ => hstatus⟩

end Sys2Proof.Machine

/-! ### Power-up and the host's change of a request -/

namespace Sys2Proof.Machine

/-- Presenting a request is one transaction on it: the output port shows at once what a step would drive (R70). -/
theorem step_with_req_eq_present (s : State) (q : Request) : step { s with req := q } = .next (s.present q) := by
  obtain ⟨r, hstep⟩ := everyRequestIsAnswered { s with req := q }
  have hrsp : (s.present q).rsp = r := State.output_of_step hstep
  rw [hstep, ← hrsp]
  rfl

/-- Whatever the core was doing, it is settled when a request has been presented. -/
theorem present_settled (s : State) (q : Request) : (s.present q).settled :=
  (repeatingARequestChangesNothing _ _ (step_with_req_eq_present s q)).2

/-- What stands on the ports after presenting depends on the request and the instance alone (D1, R72). -/
theorem present_congr {s t : State} (q : Request) (hinst : s.inst = t.inst) : s.present q = t.present q := by
  obtain ⟨r, hs, ht⟩ := responseIsAFunctionOfTheRequest { s with req := q } { t with req := q } rfl hinst
  rw [step_with_req_eq_present] at hs ht
  have hspresent := Host.Outcome.next.inj hs
  have htpresent := Host.Outcome.next.inj ht
  rw [hspresent, htpresent, hinst]

/-- `State.reset` is REF31 coming up with `PCOUNT 0` on its inputs (R70; log entries 2 to 4). -/
theorem reset_eq_powerUp : State.reset = State.powerUp Params.ref31 ⟨0#3, 0, 0, 0⟩ := by decide

/-- Settles O54: power-up presents its request, presenting settles the core, and so does a step. -/
theorem responseFollowsTheRequestAtAllTimes : Obligations.ResponseFollowsTheRequestAtAllTimes :=
  ⟨fun _ q => ⟨rfl, rfl, present_settled _ q⟩, fun s q => ⟨rfl, rfl, present_settled s q⟩,
    fun s t hstep => (repeatingARequestChangesNothing s t hstep).2⟩

/-- Settles O55: presenting keeps the instance, and power-up presents its request. -/
theorem changedRequestLeavesNothingBehind : Obligations.ChangedRequestLeavesNothingBehind :=
  ⟨fun s q q' => present_congr q' (s.present_inst q), fun _ _ q hinst => present_congr q hinst,
    fun _ q => present_congr q rfl⟩

/-- Settles O52: it is a power-up of a valid instance with a request that fits. -/
theorem resetStateIsSafe : Obligations.ResetStateIsSafe := by
  obtain ⟨-, powerUp_safe⟩ := presentKeepsTheStateSafe
  rw [Obligations.ResetStateIsSafe, reset_eq_powerUp]
  exact powerUp_safe _ _ (by decide) (by decide)

/-- Settles O53: like every power-up it presents its request. -/
theorem resetResponseBelongsToItsRequest : Obligations.ResetResponseBelongsToItsRequest := by
  have hsettled : State.reset.settled := reset_eq_powerUp ▸ present_settled _ _
  exact ⟨hsettled, rfl, rfl, reset_eq_powerUp⟩

end Sys2Proof.Machine

/-! ### Valid codewords and the words of the test vectors -/

namespace Sys2Proof.Hamming

/-- A sequence of an encoded length with syndrome 0 is the codeword of its own data bits (R51). -/
theorem encode_extractData {c : BitSeq} {m : Nat} (hlength : c.length = nOf m) (hsyndrome : syndrome c = 0) :
    encode (extractData c) = c := by
  have hdata : (extractData c).length = m := by rw [extractData, List.length_map, hlength, length_dataPositions_nOf]
  refine eq_of_extractData_eq ?_ ?_ (extractData_encode _)
  · rw [length_encode, hdata, hlength, nOf]
  · rw [syndrome_encode, hsyndrome]

/-- Settles O28: every codeword has syndrome 0, and a sequence with syndrome 0 is the codeword of what is extracted
from it. -/
theorem validCodewordsAreSyndromeZero : Obligations.ValidCodewordsAreSyndromeZero := by
  refine fun c => ⟨?_, ?_⟩
  · rintro ⟨data, rfl⟩
    exact ⟨⟨data.length, length_encode data⟩, syndrome_encode data⟩
  · rintro ⟨⟨m, hlength⟩, hsyndrome⟩
    exact ⟨extractData c, (encode_extractData hlength hsyndrome).symm⟩

end Sys2Proof.Hamming

namespace Sys2Proof

/-- Settles O19: each word is the word of a request whose fields fit REF31, and the decoder reads these fields. -/
theorem wordsOfTheTestVectorsDecode : Obligations.WordsOfTheTestVectorsDecode :=
  ⟨decode_toWord (q := ⟨0#3, 255, 0, 0⟩) (by decide), decode_toWord (q := ⟨1#3, 128, 0, 0⟩) (by decide),
    decode_toWord (q := ⟨2#3, 4, 0, 0xd⟩) (by decide), decode_toWord (q := ⟨3#3, 7, 0, 0x76⟩) (by decide),
    decode_toWord (q := ⟨4#3, 31, 200, 0⟩) (by decide),
    decode_toWord (q := ⟨7#3, 0xff, 0xff, 0x7fffffff⟩) (by decide)⟩

end Sys2Proof
